-- ==== Sys2Proof/Word.lean ====
section
/-! DEFINITION. The widths of the machine's values and of the operands of its instructions (spec 00_scope.md R8, R10,
R11; 30_encoding.md R71). -/
namespace Sys2Proof

/-- An 8-bit value: a general register, a timer, a byte of memory, the immediate `kk`. -/
abbrev Byte := BitVec 8

/-- A 16-bit value: an instruction word, pc, I, a stack slot. -/
abbrev Word := BitVec 16

/-- The 12-bit address operand `nnn` (R74). -/
abbrev Addr12 := BitVec 12

/-- The 4-bit operand `n`, the height of a sprite (R71). -/
abbrev Nibble := BitVec 4

/-- A general register's number: every value 0..15 is a legal register (R72). -/
abbrev Reg := Fin 16

/-- The flag register VF, register number 0xF (10_state.md R21). -/
abbrev vf : Reg := 15

end Sys2Proof
end

