-- ==== Sys2Proof/Config.lean ====
section
/-! DEFINITION. The block's fixed parameters (spec 00_scope.md R8), the parameter the source leaves open that is not a
table of bytes (R9: SUBN_UNDERFLOW), and the free values. -/
namespace Sys2Proof.Config

/-- MEM_SIZE: bytes of addressable memory (R8). -/
abbrev memSize : Nat := 4096

/-- PROG_BASE: load address and reset pc (R8). -/
abbrev progBase : Nat := 0x200

/-- MAX_PROG: the largest loadable program in bytes, 4096 - 512 (R8). -/
abbrev maxProg : Nat := 3584

/-- GLYPH_BASE: address of the glyph table (R8). -/
abbrev glyphBase : Nat := 0x50

/-- Bytes of one glyph (GLYPH_BYTES, R8). -/
abbrev glyphSize : Nat := 5

/-- Bytes of the whole glyph table (GLYPH_BYTES, R8). -/
abbrev glyphTotal : Nat := 80

/-- DISP_W: columns of the display (R8). -/
abbrev dispW : Nat := 64

/-- DISP_H: rows of the display (R8). -/
abbrev dispH : Nat := 32

/-- The values of the parameter SUBN_UNDERFLOW: the two readings of a SUBN whose result is below 0 (R9, 42_alu.md R151,
92_eei_decisions.md D16). The machine takes it as an argument: `State.subnUnderflow`. -/
inductive SubnUnderflow where
  /-- The difference is taken modulo 256. -/
  | wrap
  /-- The instruction raises the hard fault SubnUnderflow (60_exceptions.md R239). -/
  | fault
  deriving DecidableEq, Repr

/-- The RND input (10_state.md R43): the byte read at the `n`-th reading. FREE VALUE (DESIGN CHOICE, notes/assumptions/1.md,
safe): no body, so that nothing can be proved of its values. -/
opaque rndByte : Nat → Byte

end Sys2Proof.Config
end

