-- ==== Sys2Proof/Syntax.lean ====
section
/-! DEFINITION. The instructions, one constructor per row of spec/opcode_table.json, named as the decoder of
spec 30_encoding.md R80 names them. Operands have exactly the width the encoding gives them (R71, R73), so no term of
`Instr` is ill-formed (notes/assumptions/23.md). -/
namespace Sys2Proof

/-- The 34 instructions of R81. -/
inductive Instr where
  /-- CLS, 0--0 (R190). -/
  | cls
  /-- RET, 0--E (R121). -/
  | ret
  /-- JP nnn, 1nnn (R122). -/
  | jp (nnn : Addr12)
  /-- CALL nnn, 2nnn (R123). -/
  | call (nnn : Addr12)
  /-- SE Vx,kk, 3xkk (R124). -/
  | sei (x : Reg) (kk : Byte)
  /-- SNE Vx,kk, 4xkk (R125). -/
  | snei (x : Reg) (kk : Byte)
  /-- SE Vx,Vy, 5xy- (R126). -/
  | ser (x y : Reg)
  /-- LD Vx,kk, 6xkk (R142). -/
  | ldi (x : Reg) (kk : Byte)
  /-- ADD Vx,kk, 7xkk (R143). -/
  | addi (x : Reg) (kk : Byte)
  /-- LD Vx,Vy, 8xy0 (R144). -/
  | ldr (x y : Reg)
  /-- OR Vx,Vy, 8xy1 (R145). -/
  | or (x y : Reg)
  /-- AND Vx,Vy, 8xy2 (R146). -/
  | and (x y : Reg)
  /-- XOR Vx,Vy, 8xy3 (R147). -/
  | xor (x y : Reg)
  /-- ADD Vx,Vy, 8xy4 (R148). -/
  | add (x y : Reg)
  /-- SUB Vx,Vy, 8xy5 (R149). -/
  | sub (x y : Reg)
  /-- SHR Vx, 8xy6; y is encoded and ignored (R150). -/
  | shr (x y : Reg)
  /-- SUBN Vx,Vy, 8xy7 (R151). -/
  | subn (x y : Reg)
  /-- SHL Vx, 8xyE; y is encoded and ignored (R152). -/
  | shl (x y : Reg)
  /-- SNE Vx,Vy, 9xy- (R127). -/
  | sner (x y : Reg)
  /-- LD I,nnn, Annn (R170). -/
  | ldidx (nnn : Addr12)
  /-- JP V0,nnn, Bnnn (R128). -/
  | jpv0 (nnn : Addr12)
  /-- RND Vx,kk, Cxkk (R154). -/
  | rnd (x : Reg) (kk : Byte)
  /-- DRW Vx,Vy,n, Dxyn (R191). -/
  | drw (x y : Reg) (n : Nibble)
  /-- SKP Vx, Ex9E (R210). -/
  | skp (x : Reg)
  /-- SKNP Vx, ExA1 (R211). -/
  | sknp (x : Reg)
  /-- LD Vx,DT, Fx07 (R214). -/
  | ldvdt (x : Reg)
  /-- LD Vx,K, Fx0A (R215). -/
  | ldvk (x : Reg)
  /-- LD DT,Vx, Fx15 (R216). -/
  | lddtv (x : Reg)
  /-- LD ST,Vx, Fx18 (R217). -/
  | ldstv (x : Reg)
  /-- ADD I,Vx, Fx1E (R171). -/
  | addidx (x : Reg)
  /-- LD F,Vx, Fx29 (R172). -/
  | ldf (x : Reg)
  /-- LD B,Vx, Fx33 (R173). -/
  | ldb (x : Reg)
  /-- LD [I],Vx, Fx55 (R174). -/
  | stm (x : Reg)
  /-- LD Vx,[I], Fx65 (R175). -/
  | ldm (x : Reg)
  deriving DecidableEq, Repr

end Sys2Proof
end

