-- ==== Sys2Proof/WellFormed.lean ====
section
/-! DEFINITION. What is well formed before anything runs: an instruction WORD is when a row of the opcode map
matches it (spec 30_encoding.md R81, R82), a PROGRAM is when it fits the program region (70_reset_and_hazards.md R262,
R263). A term of `Instr` always is: its operands have the encoding's own widths (notes/assumptions/23.md). -/
namespace Sys2Proof

/-- A row of the opcode map of R81: a word `w` is this instruction when `w &&& mask = value`. -/
structure OpcodeRow where
  mnemonic : String
  mask : Word
  value : Word
  deriving DecidableEq, Repr

/-- Rows 1 to 9: families 0 to 7 (R81). -/
def opcodeRowsLow : List OpcodeRow :=
  [⟨"CLS", 0xF00F, 0x0000⟩, ⟨"RET", 0xF00F, 0x000E⟩, ⟨"JP_nnn", 0xF000, 0x1000⟩, ⟨"CALL_nnn", 0xF000, 0x2000⟩,
   ⟨"SE_Vx_kk", 0xF000, 0x3000⟩, ⟨"SNE_Vx_kk", 0xF000, 0x4000⟩, ⟨"SE_Vx_Vy", 0xF000, 0x5000⟩,
   ⟨"LD_Vx_kk", 0xF000, 0x6000⟩, ⟨"ADD_Vx_kk", 0xF000, 0x7000⟩]

/-- Rows 10 to 18: family 8 (R81). -/
def opcodeRowsArith : List OpcodeRow :=
  [⟨"LD_Vx_Vy", 0xF00F, 0x8000⟩, ⟨"OR_Vx_Vy", 0xF00F, 0x8001⟩, ⟨"AND_Vx_Vy", 0xF00F, 0x8002⟩,
   ⟨"XOR_Vx_Vy", 0xF00F, 0x8003⟩, ⟨"ADD_Vx_Vy", 0xF00F, 0x8004⟩, ⟨"SUB_Vx_Vy", 0xF00F, 0x8005⟩,
   ⟨"SHR_Vx", 0xF00F, 0x8006⟩, ⟨"SUBN_Vx_Vy", 0xF00F, 0x8007⟩, ⟨"SHL_Vx", 0xF00F, 0x800E⟩]

/-- Rows 19 to 25: families 9 to E (R81). -/
def opcodeRowsHigh : List OpcodeRow :=
  [⟨"SNE_Vx_Vy", 0xF000, 0x9000⟩, ⟨"LD_I_nnn", 0xF000, 0xA000⟩, ⟨"JP_V0_nnn", 0xF000, 0xB000⟩,
   ⟨"RND_Vx_kk", 0xF000, 0xC000⟩, ⟨"DRW_Vx_Vy_n", 0xF000, 0xD000⟩, ⟨"SKP_Vx", 0xF0FF, 0xE09E⟩,
   ⟨"SKNP_Vx", 0xF0FF, 0xE0A1⟩]

/-- Rows 26 to 34: family F (R81). -/
def opcodeRowsMisc : List OpcodeRow :=
  [⟨"LD_Vx_DT", 0xF0FF, 0xF007⟩, ⟨"LD_Vx_K", 0xF0FF, 0xF00A⟩, ⟨"LD_DT_Vx", 0xF0FF, 0xF015⟩,
   ⟨"LD_ST_Vx", 0xF0FF, 0xF018⟩, ⟨"ADD_I_Vx", 0xF0FF, 0xF01E⟩, ⟨"LD_F_Vx", 0xF0FF, 0xF029⟩,
   ⟨"LD_B_Vx", 0xF0FF, 0xF033⟩, ⟨"LD__I__Vx", 0xF0FF, 0xF055⟩, ⟨"LD_Vx__I", 0xF0FF, 0xF065⟩]

/-- The opcode map of R81. -/
def opcodeTable : List OpcodeRow :=
  opcodeRowsLow ++ opcodeRowsArith ++ opcodeRowsHigh ++ opcodeRowsMisc

/-- Does the row select the word (R81)? -/
def OpcodeRow.selects (r : OpcodeRow) (w : Word) : Bool := w &&& r.mask == r.value

/-- A word is well formed when some row of the opcode map selects it; the others are the unrecognized words of R82. -/
def wellFormedWord (w : Word) : Bool := opcodeTable.any (·.selects w)

/-- A program is well formed when load accepts it: at most MAX_PROG bytes (R262, R263). -/
def wellFormedProgram (bytes : List Byte) : Bool := decide (bytes.length ≤ Config.maxProg)

end Sys2Proof
end

