-- ==== Sys2Proof/Decode.lean ====
section
/-! DEFINITION. The decoder, total on any bytes and rejecting by name, and after it the encoder; both written from the
encodings of spec 30_encoding.md R70 to R82. -/
namespace Sys2Proof

/-- Why bytes are no instruction. -/
inductive DecodeError where
  /-- The decoder's fallback for a word no known pattern matches (R82). -/
  | unrecognized (w : Word)
  /-- Fewer than the two bytes of an instruction (R70). -/
  | tooShort
  deriving DecidableEq, Repr

/-- Family nibble f, bits 15..12 (R71). -/
def fieldF (w : Word) : Nibble := w.extractLsb' 12 4

/-- Register index X, bits 11..8 (R71). -/
def fieldX (w : Word) : Reg := (w.extractLsb' 8 4).toFin

/-- Register index Y, bits 7..4 (R71). -/
def fieldY (w : Word) : Reg := (w.extractLsb' 4 4).toFin

/-- Immediate byte kk, bits 7..0 (R71). -/
def fieldKK (w : Word) : Byte := w.extractLsb' 0 8

/-- Address nnn, bits 11..0 (R71). -/
def fieldNNN (w : Word) : Addr12 := w.extractLsb' 0 12

/-- Nibble n, bits 3..0 (R71). -/
def fieldN (w : Word) : Nibble := w.extractLsb' 0 4

/-- Family 0: only the low nibble is examined (R76; 92_eei_decisions.md D10, notes/assumptions/9.md). -/
def decodeFamily0 (w : Word) : Except DecodeError Instr :=
  match (fieldN w).toNat with
  | 0x0 => .ok .cls
  | 0xE => .ok .ret
  | _ => .error (.unrecognized w)

/-- Family 8: the low nibble is the sub-code (R77). -/
def decodeFamily8 (w : Word) : Except DecodeError Instr :=
  match (fieldN w).toNat with
  | 0x0 => .ok (.ldr (fieldX w) (fieldY w))
  | 0x1 => .ok (.or (fieldX w) (fieldY w))
  | 0x2 => .ok (.and (fieldX w) (fieldY w))
  | 0x3 => .ok (.xor (fieldX w) (fieldY w))
  | 0x4 => .ok (.add (fieldX w) (fieldY w))
  | 0x5 => .ok (.sub (fieldX w) (fieldY w))
  | 0x6 => .ok (.shr (fieldX w) (fieldY w))
  | 0x7 => .ok (.subn (fieldX w) (fieldY w))
  | 0xE => .ok (.shl (fieldX w) (fieldY w))
  | _ => .error (.unrecognized w)

/-- Family E: the whole low byte is the sub-code (R78; 90_conflicts.md C2, notes/assumptions/10.md). -/
def decodeFamilyE (w : Word) : Except DecodeError Instr :=
  match (fieldKK w).toNat with
  | 0x9E => .ok (.skp (fieldX w))
  | 0xA1 => .ok (.sknp (fieldX w))
  | _ => .error (.unrecognized w)

/-- Family F: the whole low byte is the sub-code (R78, notes/assumptions/10.md). -/
def decodeFamilyF (w : Word) : Except DecodeError Instr :=
  match (fieldKK w).toNat with
  | 0x07 => .ok (.ldvdt (fieldX w))
  | 0x0A => .ok (.ldvk (fieldX w))
  | 0x15 => .ok (.lddtv (fieldX w))
  | 0x18 => .ok (.ldstv (fieldX w))
  | 0x1E => .ok (.addidx (fieldX w))
  | 0x29 => .ok (.ldf (fieldX w))
  | 0x33 => .ok (.ldb (fieldX w))
  | 0x55 => .ok (.stm (fieldX w))
  | 0x65 => .ok (.ldm (fieldX w))
  | _ => .error (.unrecognized w)

/-- `decode(w)` of R80: a pure, total function of the word. The low nibble of families 5 and 9 is not examined (R79). -/
def decodeWord (w : Word) : Except DecodeError Instr :=
  match (fieldF w).toNat with
  | 0x0 => decodeFamily0 w
  | 0x1 => .ok (.jp (fieldNNN w))
  | 0x2 => .ok (.call (fieldNNN w))
  | 0x3 => .ok (.sei (fieldX w) (fieldKK w))
  | 0x4 => .ok (.snei (fieldX w) (fieldKK w))
  | 0x5 => .ok (.ser (fieldX w) (fieldY w))
  | 0x6 => .ok (.ldi (fieldX w) (fieldKK w))
  | 0x7 => .ok (.addi (fieldX w) (fieldKK w))
  | 0x8 => decodeFamily8 w
  | 0x9 => .ok (.sner (fieldX w) (fieldY w))
  | 0xA => .ok (.ldidx (fieldNNN w))
  | 0xB => .ok (.jpv0 (fieldNNN w))
  | 0xC => .ok (.rnd (fieldX w) (fieldKK w))
  | 0xD => .ok (.drw (fieldX w) (fieldY w) (fieldN w))
  | 0xE => decodeFamilyE w
  | 0xF => decodeFamilyF w
  | _ => .error (.unrecognized w)

/-- The word of two bytes, the first (lower address) in bits 15..8 (R70, 20_memory.md R53). -/
def wordOfBytes (hi lo : Byte) : Word := hi ++ lo

/-- The byte of a word at the lower address (R70). -/
def highByte (w : Word) : Byte := w.extractLsb' 8 8

/-- The byte of a word at the higher address (R70). -/
def lowByte (w : Word) : Byte := w.extractLsb' 0 8

/-- Decode the instruction at the front of a list of bytes; answers the instruction and the bytes after it. -/
def decode : List Byte → Except DecodeError (Instr × List Byte)
  | hi :: lo :: rest => (decodeWord (wordOfBytes hi lo)).map (·, rest)
  | _ => .error .tooShort

/-! ### The encoder -/

/-- A register number as the 4 bits of its field. -/
def regBits (x : Reg) : Nibble := BitVec.ofFin x

/-- Format A: `f n n n` (R73). -/
def encodeA (f : Nibble) (nnn : Addr12) : Word := f ++ nnn

/-- Format XK: `f x k k` (R73); also format XS, whose kk is a sub-code. -/
def encodeXK (f : Nibble) (x : Reg) (kk : Byte) : Word := f ++ regBits x ++ kk

/-- Format XYN: `f x y n` (R73); also format XY, whose low nibble the decoder ignores. -/
def encodeXYN (f : Nibble) (x y : Reg) (n : Nibble) : Word := f ++ regBits x ++ regBits y ++ n

/-- The word of an instruction (R81). The bits the decoder ignores are those of the canonical words (R76, R79):
0x00E0, 0x00EE, 5xy0, 9xy0 (DESIGN CHOICE, notes/assumptions/18.md, safe). -/
def encode : Instr → Word
  | .cls => 0x00E0
  | .ret => 0x00EE
  | .jp nnn => encodeA 0x1 nnn
  | .call nnn => encodeA 0x2 nnn
  | .sei x kk => encodeXK 0x3 x kk
  | .snei x kk => encodeXK 0x4 x kk
  | .ser x y => encodeXYN 0x5 x y 0x0
  | .ldi x kk => encodeXK 0x6 x kk
  | .addi x kk => encodeXK 0x7 x kk
  | .ldr x y => encodeXYN 0x8 x y 0x0
  | .or x y => encodeXYN 0x8 x y 0x1
  | .and x y => encodeXYN 0x8 x y 0x2
  | .xor x y => encodeXYN 0x8 x y 0x3
  | .add x y => encodeXYN 0x8 x y 0x4
  | .sub x y => encodeXYN 0x8 x y 0x5
  | .shr x y => encodeXYN 0x8 x y 0x6
  | .subn x y => encodeXYN 0x8 x y 0x7
  | .shl x y => encodeXYN 0x8 x y 0xE
  | .sner x y => encodeXYN 0x9 x y 0x0
  | .ldidx nnn => encodeA 0xA nnn
  | .jpv0 nnn => encodeA 0xB nnn
  | .rnd x kk => encodeXK 0xC x kk
  | .drw x y n => encodeXYN 0xD x y n
  | .skp x => encodeXK 0xE x 0x9E
  | .sknp x => encodeXK 0xE x 0xA1
  | .ldvdt x => encodeXK 0xF x 0x07
  | .ldvk x => encodeXK 0xF x 0x0A
  | .lddtv x => encodeXK 0xF x 0x15
  | .ldstv x => encodeXK 0xF x 0x18
  | .addidx x => encodeXK 0xF x 0x1E
  | .ldf x => encodeXK 0xF x 0x29
  | .ldb x => encodeXK 0xF x 0x33
  | .stm x => encodeXK 0xF x 0x55
  | .ldm x => encodeXK 0xF x 0x65

/-- The bytes of an instruction, lower address first (R70). -/
def encodeBytes (i : Instr) : List Byte := [highByte (encode i), lowByte (encode i)]

/-- The bits of an instruction's word that the decoder examines: all but bits 11..4 of CLS and RET (R76) and bits 3..0
of SE Vx,Vy and SNE Vx,Vy (R79). -/
def examinedBits : Instr → Word
  | .cls | .ret => 0xF00F
  | .ser _ _ | .sner _ _ => 0xFFF0
  | .jp _ | .call _ | .sei _ _ | .snei _ _ | .ldi _ _ | .addi _ _ | .ldr _ _ | .or _ _ | .and _ _ | .xor _ _
  | .add _ _ | .sub _ _ | .shr _ _ | .subn _ _ | .shl _ _ | .ldidx _ | .jpv0 _ | .rnd _ _ | .drw _ _ _ | .skp _
  | .sknp _ | .ldvdt _ | .ldvk _ | .lddtv _ | .ldstv _ | .addidx _ | .ldf _ | .ldb _ | .stm _ | .ldm _ => 0xFFFF

/-- The row of the opcode map an instruction stands for (R81). -/
def rowOf : Instr → OpcodeRow
  | .cls => ⟨"CLS", 0xF00F, 0x0000⟩
  | .ret => ⟨"RET", 0xF00F, 0x000E⟩
  | .jp _ => ⟨"JP_nnn", 0xF000, 0x1000⟩
  | .call _ => ⟨"CALL_nnn", 0xF000, 0x2000⟩
  | .sei _ _ => ⟨"SE_Vx_kk", 0xF000, 0x3000⟩
  | .snei _ _ => ⟨"SNE_Vx_kk", 0xF000, 0x4000⟩
  | .ser _ _ => ⟨"SE_Vx_Vy", 0xF000, 0x5000⟩
  | .ldi _ _ => ⟨"LD_Vx_kk", 0xF000, 0x6000⟩
  | .addi _ _ => ⟨"ADD_Vx_kk", 0xF000, 0x7000⟩
  | .ldr _ _ => ⟨"LD_Vx_Vy", 0xF00F, 0x8000⟩
  | .or _ _ => ⟨"OR_Vx_Vy", 0xF00F, 0x8001⟩
  | .and _ _ => ⟨"AND_Vx_Vy", 0xF00F, 0x8002⟩
  | .xor _ _ => ⟨"XOR_Vx_Vy", 0xF00F, 0x8003⟩
  | .add _ _ => ⟨"ADD_Vx_Vy", 0xF00F, 0x8004⟩
  | .sub _ _ => ⟨"SUB_Vx_Vy", 0xF00F, 0x8005⟩
  | .shr _ _ => ⟨"SHR_Vx", 0xF00F, 0x8006⟩
  | .subn _ _ => ⟨"SUBN_Vx_Vy", 0xF00F, 0x8007⟩
  | .shl _ _ => ⟨"SHL_Vx", 0xF00F, 0x800E⟩
  | .sner _ _ => ⟨"SNE_Vx_Vy", 0xF000, 0x9000⟩
  | .ldidx _ => ⟨"LD_I_nnn", 0xF000, 0xA000⟩
  | .jpv0 _ => ⟨"JP_V0_nnn", 0xF000, 0xB000⟩
  | .rnd _ _ => ⟨"RND_Vx_kk", 0xF000, 0xC000⟩
  | .drw _ _ _ => ⟨"DRW_Vx_Vy_n", 0xF000, 0xD000⟩
  | .skp _ => ⟨"SKP_Vx", 0xF0FF, 0xE09E⟩
  | .sknp _ => ⟨"SKNP_Vx", 0xF0FF, 0xE0A1⟩
  | .ldvdt _ => ⟨"LD_Vx_DT", 0xF0FF, 0xF007⟩
  | .ldvk _ => ⟨"LD_Vx_K", 0xF0FF, 0xF00A⟩
  | .lddtv _ => ⟨"LD_DT_Vx", 0xF0FF, 0xF015⟩
  | .ldstv _ => ⟨"LD_ST_Vx", 0xF0FF, 0xF018⟩
  | .addidx _ => ⟨"ADD_I_Vx", 0xF0FF, 0xF01E⟩
  | .ldf _ => ⟨"LD_F_Vx", 0xF0FF, 0xF029⟩
  | .ldb _ => ⟨"LD_B_Vx", 0xF0FF, 0xF033⟩
  | .stm _ => ⟨"LD__I__Vx", 0xF0FF, 0xF055⟩
  | .ldm _ => ⟨"LD_Vx__I", 0xF0FF, 0xF065⟩

/-! ### Words as the opcode table numbers them -/

/-- The instruction word whose bits are `w` as spec/opcode_table.json numbers them: bit 0 is the least significant bit
of the one 16-bit word; bits from `nbits` on are 0. -/
def tableWord (nbits w : Nat) : Word := BitVec.ofNat 16 (w % 2 ^ nbits)

/-- The instruction the decoder reads from that word laid out in memory, big-endian (R70). -/
def decodeTableWord (nbits w : Nat) : Option Instr :=
  match decode [highByte (tableWord nbits w), lowByte (tableWord nbits w)] with
  | .ok (i, _) => some i
  | .error _ => none

end Sys2Proof
end

