-- ==== Sys2Proof/Machine/Glyphs.lean ====
section
/-! DEFINITION. GLYPH_TABLE, the parameter of spec 00_scope.md R9 and 10_state.md R33, at its default: the conventional
font (PRESUMED, notes/assumptions/4.md, unsafe: the source does not give the bytes). -/
namespace Sys2Proof.Machine

/-- Digits 0 to 7, five bytes each, top row first (R33). -/
def glyphsLow : List Byte :=
  [0xF0, 0x90, 0x90, 0x90, 0xF0,
   0x20, 0x60, 0x20, 0x20, 0x70,
   0xF0, 0x10, 0xF0, 0x80, 0xF0,
   0xF0, 0x10, 0xF0, 0x10, 0xF0,
   0x90, 0x90, 0xF0, 0x10, 0x10,
   0xF0, 0x80, 0xF0, 0x10, 0xF0,
   0xF0, 0x80, 0xF0, 0x90, 0xF0,
   0xF0, 0x10, 0x20, 0x40, 0x40]

/-- Digits 8 to F, five bytes each, top row first (R33). -/
def glyphsHigh : List Byte :=
  [0xF0, 0x90, 0xF0, 0x90, 0xF0,
   0xF0, 0x90, 0xF0, 0x10, 0xF0,
   0xF0, 0x90, 0xF0, 0x90, 0x90,
   0xE0, 0x90, 0xE0, 0x90, 0xE0,
   0xF0, 0x80, 0x80, 0x80, 0xF0,
   0xE0, 0x90, 0x90, 0x90, 0xE0,
   0xF0, 0x80, 0xF0, 0x80, 0xF0,
   0xF0, 0x80, 0xF0, 0x80, 0x80]

/-- The 80 bytes of the glyph table (R33). -/
def glyphTable : List Byte := glyphsLow ++ glyphsHigh

end Sys2Proof.Machine
end

