-- ==== Sys2Proof/Machine/Memory.lean ====
section
/-! DEFINITION. The 4096-byte memory (spec 20_memory.md R50 to R57) as a list of (address, byte) cells in one canonical
form: addresses strictly rising and below 4096, no cell equal to what an unlisted address reads as. -/
namespace Sys2Proof.Machine

/-- Memory as data: the cells that differ from the memory right after initialize. -/
abbrev Memory := List Host.Cell

/-- What an unlisted address reads as: its contents right after initialize, the glyph table at 0x050..0x09F (10_state.md
R33) and 0 elsewhere (70_reset_and_hazards.md R260; 92_eei_decisions.md D23: DESIGN CHOICE, notes/assumptions/5.md,
unsafe). -/
def Memory.unlisted (a : Nat) : Byte :=
  if Config.glyphBase ≤ a then glyphTable.getD (a - Config.glyphBase) 0 else 0

/-- The byte a list of cells gives for an address, with no bounds check. -/
def Memory.lookup (a : Nat) : Memory → Byte
  | [] => Memory.unlisted a
  | (a', b) :: m => if a' = a then b else Memory.lookup a m

/-- Put a byte at an address, keeping the canonical form, with no bounds check. -/
def Memory.put (a : Nat) (b : Byte) : Memory → Memory
  | [] => if b = Memory.unlisted a then [] else [(a, b)]
  | (a', b') :: m =>
    if a < a' then (if b = Memory.unlisted a then (a', b') :: m else (a, b) :: (a', b') :: m)
    else if a = a' then (if b = Memory.unlisted a then m else (a, b) :: m)
    else (a', b') :: Memory.put a b m

/-- M[a], for the valid addresses 0..4095 (R50, R54); none outside. -/
def Memory.read (m : Memory) (a : Nat) : Option Byte :=
  if a < Config.memSize then some (Memory.lookup a m) else none

/-- M[a] <- b for a valid address; nothing outside (R55). -/
def Memory.write (a : Nat) (b : Byte) (m : Memory) : Memory :=
  if a < Config.memSize then Memory.put a b m else m

/-- Put the bytes at consecutive addresses from `a` on. -/
def Memory.writeBytes : Nat → List Byte → Memory → Memory
  | _, [], m => m
  | a, b :: bs, m => Memory.writeBytes (a + 1) bs (Memory.write a b m)

/-- The canonical form: equal memories are equal lists. -/
abbrev Memory.wf (m : Memory) : Prop :=
  m.Pairwise (fun c d => c.1 < d.1) ∧ ∀ c ∈ m, c.1 < Config.memSize ∧ c.2 ≠ Memory.unlisted c.1

end Sys2Proof.Machine
end

