-- ==== Sys2Proof/Machine/State.lean ====
section
/-! DEFINITION. The machine's state as plain data (spec 10_state.md R20 to R45), its outputs, and its value after
initialize. -/
namespace Sys2Proof.Machine

/-- The causes of a hard fault (60_exceptions.md R236). -/
inductive HaltCause where
  /-- CALL with SP = 16 (R237). -/
  | stackOverflow
  /-- RET with SP = 0 (R237). -/
  | stackUnderflow
  /-- A step whose pc is ≥ 0xFFF (R238). -/
  | fetchOutOfRange
  /-- SUBN below 0, only under SUBN_UNDERFLOW = fault (R239). -/
  | subnUnderflow
  deriving DecidableEq, Repr

/-- The direction of an out-of-range access (60_exceptions.md R231). -/
inductive Access where
  | read
  | write
  deriving DecidableEq, Repr

/-- A diagnostic event with its info (60_exceptions.md R231). -/
inductive Diag where
  /-- The word decoded to no instruction (R232). -/
  | unrecognized (w : Word)
  /-- A byte access at an address ≥ 4096 (R233). -/
  | memOutOfRange (addr : Nat) (access : Access)
  /-- A draw that lost at least one set bit at the edges (R234). -/
  | displayClipped (vx vy : Byte) (n : Nibble)
  /-- SKP or SKNP with Vx ≥ 16 (R235). -/
  | keyIndexOutOfRange (v : Byte)
  deriving DecidableEq, Repr

/-- The display: 32 rows of 64 one-bit cells, row-major; the leftmost cell of a row is its most significant bit, as the
leftmost pixel of a sprite byte is its high bit (10_state.md R31, R33; notes/assumptions/24.md). -/
abbrev Display := Vector (BitVec 64) 32

/-- The state: the elements of R44, then the outputs of the last step (R42), the model's counter of RND readings and the
parameter SUBN_UNDERFLOW. -/
structure State where
  /-- V0..VF (R20). -/
  v : Vector Byte 16
  /-- I (R24). -/
  index : Word
  /-- pc (R22). -/
  pc : Word
  /-- SP, the number of occupied slots, 0..16 (R26). -/
  sp : Fin 17
  /-- S[0]..S[15] (R26). -/
  stack : Vector Word 16
  /-- DT (R28). -/
  dt : Byte
  /-- ST (R28). -/
  st : Byte
  /-- K[0]..K[15], true while the key is down (R30). -/
  keys : Vector Bool 16
  /-- D (R31). -/
  display : Display
  /-- M (R35). -/
  mem : Memory
  /-- halted (R36). -/
  halted : Option HaltCause
  /-- OUTPUT of the last step: the beep (R42(b)); the model's own field (DESIGN CHOICE, notes/assumptions/2.md, safe). -/
  beep : Bool
  /-- OUTPUT of the last step: the diagnostics in emission order (R42(c)); the model's own field
  (DESIGN CHOICE, notes/assumptions/2.md, safe). -/
  diags : List Diag
  /-- How many RND bytes have been read: the model's own field for the free input of R43
  (DESIGN CHOICE, notes/assumptions/1.md, safe). -/
  rndIndex : Nat
  /-- The parameter SUBN_UNDERFLOW, an argument of the machine that nothing ever changes (00_scope.md R9): no state of the
  block (R45) but the model's own field, so that every step exists under either value (DESIGN CHOICE, notes/assumptions/6.md,
  safe). -/
  subnUnderflow : Config.SubnUnderflow
  deriving DecidableEq, Repr

/-- Reasons for which a step stops with the host's `fault` outcome: none. The spec says what a hard fault leaves (the
state before the step, `halted` set, R236), so a hard fault is a NEXT state (notes/assumptions/3.md), and no other
fault exists (R230). -/
inductive Fault : Type
  deriving DecidableEq, Repr

/-- Reasons for which an instruction has no meaning. -/
inductive Refusal where
  /-- Raised only by an arm of `exec` for an instruction the model does not give a meaning yet. Safe. No arm raises it. -/
  | notModelled (mnemonic : String)
  deriving DecidableEq, Repr

/-- The outcome of a step or of an instruction. -/
abbrev Result := Host.Outcome State Fault Refusal

/-- The state after initialize (70_reset_and_hazards.md R260, 10_state.md R44). The model's own last four fields are
DESIGN CHOICE (notes/assumptions/1.md, 2.md, 6.md); SUBN_UNDERFLOW has the spec's value `wrap` (00_scope.md R9, D16). -/
def State.reset : State where
  v := Vector.replicate 16 0
  index := 0
  pc := 0x200
  sp := 0
  stack := Vector.replicate 16 0
  dt := 0
  st := 0
  keys := Vector.replicate 16 false
  display := Vector.replicate 32 0
  mem := []
  halted := none
  beep := false
  diags := []
  rndIndex := 0
  subnUnderflow := .wrap

end Sys2Proof.Machine
end

