-- ==== Sys2Proof/Machine/Operands.lean ====
section
/-! DEFINITION. Operand forms: general registers, zero-extended immediates, the register-indirect data address, the
display's cells and the key flags. -/
namespace Sys2Proof.Machine

/-- `V[x]` (10_state.md R20). -/
def State.readV (s : State) (x : Reg) : Byte := s.v[x]

/-- `V[x] <- b` (10_state.md R20): no register is hardwired. -/
def State.writeV (s : State) (x : Reg) (b : Byte) : State := { s with v := s.v.set x b }

/-- The registers V0..Vx in ascending order, x included (43_index_memory.md R174, R175). -/
def regsUpTo (x : Reg) : List Reg := [0, 1, 2, 3, 4, 5, 6, 7, 8, 9, 10, 11, 12, 13, 14, 15].take (x.val + 1)

/-- `zext_16(nnn)` (30_encoding.md R74). -/
def zext16 (nnn : Addr12) : Word := nnn.zeroExtend 16

/-- The one data addressing mode: `I + offset` on unbounded integers (43_index_memory.md R176, 20_memory.md R57). -/
def State.effAddr (s : State) (offset : Nat) : Nat := s.index.toNat + offset

/-- The cell at column `c` and row `r` of a display; off outside 64 × 32 (10_state.md R31). -/
def cellAt (d : Display) (c r : Nat) : Bool := if h : r < 32 then d[r].getMsbD c else false

/-- D[k] of R31: cell (c, r) is D[r·64 + c]. -/
def State.cell (s : State) (k : Nat) : Bool := cellAt s.display (k % Config.dispW) (k / Config.dispW)

/-- `D[r·64 + c] <- D[r·64 + c] ^ 1` (44_display.md R191); nothing outside the display. -/
def flipCell (d : Display) (c r : Nat) : Display :=
  if h : c < 64 ∧ r < 32 then d.set r (d[r] ^^^ BitVec.twoPow 64 (63 - c)) else d

/-- Is key `k` down (10_state.md R30)? There are 16 keys. -/
def State.keyDown (s : State) (k : Nat) : Bool := s.keys.toList.getD k false

/-- The lowest key that is down, scanning 0..15 in ascending order (45_keys_timers.md R215). -/
def State.firstKeyDown (s : State) : Option Nat := (List.range 16).find? s.keyDown

end Sys2Proof.Machine
end

