-- ==== Sys2Proof/Machine/Flags.lean ====
section
/-! DEFINITION. Every flag computation of the spec, and the order in which a flag and a result are written
(42_alu.md R140, R141). -/
namespace Sys2Proof.Machine

/-- ADD Vx,Vy: 1 when the unsigned sum exceeds 255 (42_alu.md R148). -/
def carryFlag (a b : Byte) : Byte := if a.toNat + b.toNat > 255 then 1 else 0

/-- SUB: 1 when Vx > Vy, strictly (42_alu.md R149). -/
def subFlag (a b : Byte) : Byte := if a.toNat > b.toNat then 1 else 0

/-- SUBN: 1 when Vy > Vx, strictly (42_alu.md R151). -/
def subnFlag (a b : Byte) : Byte := if b.toNat > a.toNat then 1 else 0

/-- SHR: bit 0 of Vx before the shift (42_alu.md R150). -/
def shrFlag (a : Byte) : Byte := a &&& 0x01

/-- SHL: `Vx & 0x10`, the value 0x00 or 0x10, as the source has it (42_alu.md R152; notes/assumptions/8.md). -/
def shlFlag (a : Byte) : Byte := a &&& 0x10

/-- DRW: 1 when some drawn bit met a lit cell (44_display.md R195). -/
def collisionFlag (collision : Bool) : Byte := if collision then 1 else 0

/-- Write the flag register (10_state.md R21). -/
def State.writeFlag (s : State) (f : Byte) : State := s.writeV vf f

/-- The order of 42_alu.md R141: the flag is computed from the operands and written to VF; then the result is computed
from V[x] and V[y] AS THEY ARE AFTER THAT WRITE, and written to V[x] (92_eei_decisions.md D14; notes/assumptions/7.md). -/
def flagThenResult (flag result : Byte → Byte → Byte) (x y : Reg) (s : State) : State :=
  let s' := s.writeFlag (flag (s.readV x) (s.readV y))
  s'.writeV x (result (s'.readV x) (s'.readV y))

end Sys2Proof.Machine
end

