-- ==== Sys2Proof/Machine/Ops.lean ====
section
/-! DEFINITION. The operations the instructions and the step share: diagnostics, checked memory accesses, the fetch, pc,
the stack, the hard fault and the way out of it, the timers. -/
namespace Sys2Proof.Machine

/-- `emit Diag(kind, info)`: append to the step's diagnostics (60_exceptions.md R231). -/
def State.emit (s : State) (d : Diag) : State := { s with diags := s.diags ++ [d] }

/-- The outputs at the start of a step: no diagnostic, no beep (40_cycle.md R100). -/
def State.clearOutputs (s : State) : State := { s with beep := false, diags := [] }

/-! ### Memory -/

/-- One byte of memory, none outside 0..4095; what statements about memory read. -/
def State.byteAt (s : State) (a : Nat) : Option Byte := Memory.read s.mem a

/-- `MemRead(addr, 1)` (20_memory.md R54). -/
def memRead (addr : Nat) (s : State) : Option Byte × State :=
  match s.byteAt addr with
  | some b => (some b, s)
  | none => (none, s.emit (.memOutOfRange addr .read))

/-- `MemWrite(addr, 1, v)` (20_memory.md R55). -/
def memWrite (addr : Nat) (b : Byte) (s : State) : State :=
  if addr < Config.memSize then { s with mem := Memory.write addr b s.mem }
  else s.emit (.memOutOfRange addr .write)

/-- One register of LD [I],Vx: V[r] to I + r (43_index_memory.md R174). -/
def storeReg (s : State) (r : Reg) : State := memWrite (s.effAddr r.val) (s.readV r) s

/-- One register of LD Vx,[I]: V[r] from I + r, unchanged when that is out of range (43_index_memory.md R175). -/
def loadReg (s : State) (r : Reg) : State :=
  match memRead (s.effAddr r.val) s with
  | (some b, s') => s'.writeV r b
  | (none, s') => s'

/-- `Fetch(pc)`: the big-endian word at pc, none when pc ≥ 0xFFF (20_memory.md R56). No alignment requirement (R61). -/
def State.fetch (s : State) : Option Word :=
  match s.byteAt s.pc.toNat, s.byteAt (s.pc.toNat + 1) with
  | some hi, some lo => some (wordOfBytes hi lo)
  | _, _ => none

/-! ### pc and the stack -/

/-- `pc <- target`. -/
def State.setPc (s : State) (target : Word) : State := { s with pc := target }

/-- The pre-step `pc <- pc + 2` (40_cycle.md R104). -/
def State.advancePc (s : State) : State := s.setPc (s.pc + 2)

/-- A skip instruction's `pc <- pc + 2` on top of the pre-step, when its condition holds (41_flow.md R120). -/
def State.skipIf (s : State) (cond : Bool) : State := if cond then s.setPc (s.pc + 2) else s

/-- `pc <- pc - 2`, back to the current instruction (45_keys_timers.md R215). -/
def State.rewindPc (s : State) : State := s.setPc (s.pc - 2)

/-- `raise Fault(cause)` inside the execute phase (60_exceptions.md R236): marks the cause; the step then undoes
everything else (`abortStep`). This is the only exception entry the block has: there is no vector, no handler and no
saved pc (R230). -/
def raiseFault (cause : HaltCause) (s : State) : State := { s with halted := some cause }

/-- `on raise Fault(c)` of the step (40_cycle.md R100, R110): the state returns to the snapshot before the step, then
`halted <- some(cause)`; no beep, no diagnostic, no timer tick. -/
def abortStep (cause : HaltCause) (snapshot : State) : State := raiseFault cause snapshot.clearOutputs

/-- initialize, the reset and the only way out of the halted state, from any state
(70_reset_and_hazards.md R260, R261; 60_exceptions.md R242). There is no other return from a fault. The position in the
free RND stream and the parameter SUBN_UNDERFLOW are kept: they are no state of the block (10_state.md R45). -/
def initMachine (s : State) : State := { State.reset with rndIndex := s.rndIndex, subnUnderflow := s.subnUnderflow }

/-- initialize with the parameter GLYPH_TABLE as an argument (00_scope.md R9, 10_state.md R33): its 80 bytes stand at
0x050..0x09F. -/
def initMachineWith (glyphs : Vector Byte 80) (s : State) : State :=
  { initMachine s with mem := Memory.writeBytes Config.glyphBase glyphs.toList [] }

/-- Push the return address pc and jump; StackOverflow at SP = 16 (41_flow.md R123). -/
def callTo (target : Word) (s : State) : State :=
  if h : s.sp.val < 16 then
    { s with stack := s.stack.set s.sp.val s.pc h, sp := ⟨s.sp.val + 1, by omega⟩, pc := target }
  else raiseFault .stackOverflow s

/-- Pop pc, leaving the slot's contents; StackUnderflow at SP = 0 (41_flow.md R121). -/
def returnFromCall (s : State) : State :=
  if h : 0 < s.sp.val then
    { s with sp := ⟨s.sp.val - 1, by omega⟩, pc := s.stack[s.sp.val - 1] }
  else raiseFault .stackUnderflow s

/-! ### SUBN, RND and the timers -/

/-- SUBN under either value of the parameter SUBN_UNDERFLOW (42_alu.md R151, 60_exceptions.md R239). -/
def subnWith (policy : Config.SubnUnderflow) (x y : Reg) (s : State) : State :=
  let s' := s.writeFlag (subnFlag (s.readV x) (s.readV y))
  if s'.readV x ≤ s'.readV y then s'.writeV x (s'.readV y - s'.readV x)
  else match policy with
    | .wrap => s'.writeV x (s'.readV y - s'.readV x)
    | .fault => raiseFault .subnUnderflow s'

/-- This step's RND byte (10_state.md R43): a free value, fresh at every reading. -/
def State.rndByte (s : State) : Byte := Config.rndByte s.rndIndex

/-- The RND byte has been read. -/
def State.nextRnd (s : State) : State := { s with rndIndex := s.rndIndex + 1 }

/-- One tick of an 8-bit timer: down by 1 unless 0 (60_exceptions.md R243). -/
def tickByte (t : Byte) : Byte := if t = 0 then 0 else t - 1

/-- `timer_tick()`, the post-step (60_exceptions.md R243): a beep exactly when ST was 1 (R244). -/
def timerTick (s : State) : State := { s with beep := s.st == 1, dt := tickByte s.dt, st := tickByte s.st }

end Sys2Proof.Machine
end

