-- ==== Sys2Proof/Machine/Alu.lean ====
section
/-! DEFINITION. ALU and register-file instructions (spec 42_alu.md). -/
namespace Sys2Proof.Machine

/-- LD Vx,kk (R142). -/
def execLdi (x : Reg) (kk : Byte) (s : State) : Result := .next (s.writeV x kk)

/-- ADD Vx,kk: modulo 256, no flag (R143). -/
def execAddi (x : Reg) (kk : Byte) (s : State) : Result := .next (s.writeV x (s.readV x + kk))

/-- LD Vx,Vy (R144). -/
def execLdr (x y : Reg) (s : State) : Result := .next (s.writeV x (s.readV y))

/-- OR Vx,Vy (R145); VF is not written (notes/assumptions/16.md). -/
def execOr (x y : Reg) (s : State) : Result := .next (s.writeV x (s.readV x ||| s.readV y))

/-- AND Vx,Vy (R146); VF is not written (notes/assumptions/16.md). -/
def execAnd (x y : Reg) (s : State) : Result := .next (s.writeV x (s.readV x &&& s.readV y))

/-- XOR Vx,Vy (R147); VF is not written (notes/assumptions/16.md). -/
def execXor (x y : Reg) (s : State) : Result := .next (s.writeV x (s.readV x ^^^ s.readV y))

/-- ADD Vx,Vy (R148). -/
def execAdd (x y : Reg) (s : State) : Result := .next (flagThenResult carryFlag (fun a b => a + b) x y s)

/-- SUB Vx,Vy (R149). -/
def execSub (x y : Reg) (s : State) : Result := .next (flagThenResult subFlag (fun a b => a - b) x y s)

/-- SHR Vx; y is ignored (R150). -/
def execShr (x _y : Reg) (s : State) : Result :=
  .next (flagThenResult (fun a _ => shrFlag a) (fun a _ => a >>> 1) x x s)

/-- SUBN Vx,Vy under the machine's value of SUBN_UNDERFLOW (R151; notes/assumptions/6.md). -/
def execSubn (x y : Reg) (s : State) : Result := .next (subnWith s.subnUnderflow x y s)

/-- SHL Vx; y is ignored (R152). -/
def execShl (x _y : Reg) (s : State) : Result :=
  .next (flagThenResult (fun a _ => shlFlag a) (fun a _ => a <<< 1) x x s)

/-- RND Vx,kk (R154): the free RND byte masked by kk. -/
def execRnd (x : Reg) (kk : Byte) (s : State) : Result := .next (s.nextRnd.writeV x (s.rndByte &&& kk))

end Sys2Proof.Machine
end

