-- ==== Sys2Proof/Machine/Display.lean ====
section
/-! DEFINITION. Display instructions (spec 44_display.md). -/
namespace Sys2Proof.Machine

/-- What a draw builds up: the display, whether a drawn bit met a lit cell, whether a set bit was clipped (R191). -/
structure Drawing where
  display : Display
  collision : Bool
  clipped : Bool
  deriving DecidableEq, Repr

/-- One set sprite bit at column `c`, row `r`: clipped outside 64 × 32 (R193; notes/assumptions/12.md), else XORed with a
sticky collision (R191, R195). -/
def drawBit (c r : Nat) (d : Drawing) : Drawing :=
  if c < Config.dispW ∧ r < Config.dispH then
    { d with display := flipCell d.display c r, collision := d.collision || cellAt d.display c r }
  else { d with clipped := true }

/-- One sprite byte at start column `c0` of row `r`, most significant bit first (R191). -/
def drawByte (b : Byte) (c0 r : Nat) (d : Drawing) : Drawing :=
  (List.range 8).foldl (fun d k => if b.getMsbD k then drawBit (c0 + k) r d else d) d

/-- Row `r` of the sprite: its byte is read at I + r; a row outside memory draws nothing (R191, R194). -/
def drawRow (c0 r0 : Nat) (acc : State × Drawing) (r : Nat) : State × Drawing :=
  match memRead (acc.1.effAddr r) acc.1 with
  | (some b, s') => (s', drawByte b c0 (r0 + r) acc.2)
  | (none, s') => (s', acc.2)

/-- All rows 0..n-1 in ascending order (R191). -/
def drawRows (c0 r0 n : Nat) (s : State) : State × Drawing :=
  (List.range n).foldl (drawRow c0 r0) (s, ⟨s.display, false, false⟩)

/-- The draw with the coordinates already values, as the decoder resolves them (R191, R192). -/
def drawSprite (vx vy : Byte) (n : Nibble) (s : State) : State :=
  let p := drawRows (vx.toNat % Config.dispW) (vy.toNat % Config.dispH) n.toNat (s.writeFlag 0)
  let s' := State.writeFlag { p.1 with display := p.2.display } (collisionFlag p.2.collision)
  if p.2.clipped then s'.emit (.displayClipped vx vy n) else s'

/-- CLS (R190). -/
def execCls (s : State) : Result := .next { s with display := Vector.replicate 32 0 }

/-- DRW Vx,Vy,n (R191): the coordinates are V[x] and V[y] before `VF <- 0` (R192). -/
def execDrw (x y : Reg) (n : Nibble) (s : State) : Result := .next (drawSprite (s.readV x) (s.readV y) n s)

end Sys2Proof.Machine
end

