-- ==== Sys2Proof/Machine/Flow.lean ====
section
/-! DEFINITION. Control transfer (spec 41_flow.md): the execute phase, with pc already advanced by 2. -/
namespace Sys2Proof.Machine

/-- RET (R121). -/
def execRet (s : State) : Result := .next (returnFromCall s)

/-- JP nnn (R122). -/
def execJp (nnn : Addr12) (s : State) : Result := .next (s.setPc (zext16 nnn))

/-- CALL nnn (R123). -/
def execCall (nnn : Addr12) (s : State) : Result := .next (callTo (zext16 nnn) s)

/-- SE Vx,kk (R124). -/
def execSei (x : Reg) (kk : Byte) (s : State) : Result := .next (s.skipIf (s.readV x == kk))

/-- SNE Vx,kk (R125). -/
def execSnei (x : Reg) (kk : Byte) (s : State) : Result := .next (s.skipIf (s.readV x != kk))

/-- SE Vx,Vy (R126). -/
def execSer (x y : Reg) (s : State) : Result := .next (s.skipIf (s.readV x == s.readV y))

/-- SNE Vx,Vy (R127). -/
def execSner (x y : Reg) (s : State) : Result := .next (s.skipIf (s.readV x != s.readV y))

/-- JP V0,nnn: the 16-bit sum, not masked to 12 bits (R128; notes/assumptions/14.md). -/
def execJpv0 (nnn : Addr12) (s : State) : Result := .next (s.setPc (zext16 nnn + (s.readV 0).zeroExtend 16))

end Sys2Proof.Machine
end

