-- ==== Sys2Proof/Machine/IndexMemory.lean ====
section
/-! DEFINITION. Index register and memory-transfer instructions (spec 43_index_memory.md). -/
namespace Sys2Proof.Machine

/-- `I <- w`. -/
def State.setIndex (s : State) (w : Word) : State := { s with index := w }

/-- LD I,nnn (R170). -/
def execLdidx (nnn : Addr12) (s : State) : Result := .next (s.setIndex (zext16 nnn))

/-- ADD I,Vx: modulo 2^16, no flag (R171; notes/assumptions/15.md). -/
def execAddidx (x : Reg) (s : State) : Result := .next (s.setIndex (s.index + (s.readV x).zeroExtend 16))

/-- LD F,Vx: 0x050 + 5·Vx, Vx not masked (R172; notes/assumptions/15.md). -/
def execLdf (x : Reg) (s : State) : Result :=
  .next (s.setIndex (BitVec.ofNat 16 (Config.glyphBase + Config.glyphSize * (s.readV x).toNat)))

/-- The hundreds digit of LD B (R173). -/
def bcdHundreds (b : Byte) : Byte := b / 100

/-- The tens digit of LD B (R173). -/
def bcdTens (b : Byte) : Byte := (b / 10) % 10

/-- The ones digit of LD B (R173). -/
def bcdOnes (b : Byte) : Byte := b % 10

/-- The three checked writes of LD B, in the rule's order (R173). -/
def storeBcd (b : Byte) (s : State) : State :=
  memWrite (s.effAddr 2) (bcdOnes b) (memWrite (s.effAddr 1) (bcdTens b) (memWrite (s.effAddr 0) (bcdHundreds b) s))

/-- LD B,Vx (R173). -/
def execLdb (x : Reg) (s : State) : Result := .next (storeBcd (s.readV x) s)

/-- LD [I],Vx (R174): V0..Vx in ascending order, each byte checked; I unchanged. -/
def execStm (x : Reg) (s : State) : Result := .next ((regsUpTo x).foldl storeReg s)

/-- LD Vx,[I] (R175): V0..Vx in ascending order, each byte checked; I unchanged (notes/assumptions/15.md). -/
def execLdm (x : Reg) (s : State) : Result := .next ((regsUpTo x).foldl loadReg s)

end Sys2Proof.Machine
end

