-- ==== Sys2Proof/Machine/KeysTimers.lean ====
section
/-! DEFINITION. Key-query and timer instructions (spec 45_keys_timers.md). -/
namespace Sys2Proof.Machine

/-- The common shape of SKP and SKNP: a key index ≥ 16 skips nothing and emits a diagnostic (R212; notes/assumptions/11.md);
otherwise skip when the key is in the wanted position. -/
def skipOnKey (wanted : Bool) (k : Byte) (s : State) : State :=
  if k.toNat ≥ 16 then s.emit (.keyIndexOutOfRange k) else s.skipIf (s.keyDown k.toNat == wanted)

/-- SKP Vx (R210). -/
def execSkp (x : Reg) (s : State) : Result := .next (skipOnKey true (s.readV x) s)

/-- SKNP Vx (R211). -/
def execSknp (x : Reg) (s : State) : Result := .next (skipOnKey false (s.readV x) s)

/-- LD Vx,DT: DT before this step's tick (R214). -/
def execLdvdt (x : Reg) (s : State) : Result := .next (s.writeV x s.dt)

/-- The key-wait: the lowest key down, or back to the same instruction (R215). -/
def keyWait (x : Reg) (s : State) : State :=
  match s.firstKeyDown with
  | some k => s.writeV x (BitVec.ofNat 8 k)
  | none => s.rewindPc

/-- LD Vx,K (R215). -/
def execLdvk (x : Reg) (s : State) : Result := .next (keyWait x s)

/-- LD DT,Vx (R216). -/
def execLddtv (x : Reg) (s : State) : Result := .next { s with dt := s.readV x }

/-- LD ST,Vx (R217). -/
def execLdstv (x : Reg) (s : State) : Result := .next { s with st := s.readV x }

end Sys2Proof.Machine
end

