-- ==== Sys2Proof/Machine/Dispatch.lean ====
section
/-! DEFINITION. The dispatch of the execute phase (spec 40_cycle.md R106): one arm per instruction. -/
namespace Sys2Proof.Machine

def exec (i : Instr) (s : State) : Host.Outcome State Fault Refusal :=
  match i with
  | .cls => Sys2Proof.Machine.execCls s
  | .ret => Sys2Proof.Machine.execRet s
  | .jp nnn => Sys2Proof.Machine.execJp nnn s
  | .call nnn => Sys2Proof.Machine.execCall nnn s
  | .sei x kk => Sys2Proof.Machine.execSei x kk s
  | .snei x kk => Sys2Proof.Machine.execSnei x kk s
  | .ser x y => Sys2Proof.Machine.execSer x y s
  | .ldi x kk => Sys2Proof.Machine.execLdi x kk s
  | .addi x kk => Sys2Proof.Machine.execAddi x kk s
  | .ldr x y => Sys2Proof.Machine.execLdr x y s
  | .or x y => Sys2Proof.Machine.execOr x y s
  | .and x y => Sys2Proof.Machine.execAnd x y s
  | .xor x y => Sys2Proof.Machine.execXor x y s
  | .add x y => Sys2Proof.Machine.execAdd x y s
  | .sub x y => Sys2Proof.Machine.execSub x y s
  | .shr x y => Sys2Proof.Machine.execShr x y s
  | .subn x y => Sys2Proof.Machine.execSubn x y s
  | .shl x y => Sys2Proof.Machine.execShl x y s
  | .sner x y => Sys2Proof.Machine.execSner x y s
  | .ldidx nnn => Sys2Proof.Machine.execLdidx nnn s
  | .jpv0 nnn => Sys2Proof.Machine.execJpv0 nnn s
  | .rnd x kk => Sys2Proof.Machine.execRnd x kk s
  | .drw x y n => Sys2Proof.Machine.execDrw x y n s
  | .skp x => Sys2Proof.Machine.execSkp x s
  | .sknp x => Sys2Proof.Machine.execSknp x s
  | .ldvdt x => Sys2Proof.Machine.execLdvdt x s
  | .ldvk x => Sys2Proof.Machine.execLdvk x s
  | .lddtv x => Sys2Proof.Machine.execLddtv x s
  | .ldstv x => Sys2Proof.Machine.execLdstv x s
  | .addidx x => Sys2Proof.Machine.execAddidx x s
  | .ldf x => Sys2Proof.Machine.execLdf x s
  | .ldb x => Sys2Proof.Machine.execLdb x s
  | .stm x => Sys2Proof.Machine.execStm x s
  | .ldm x => Sys2Proof.Machine.execLdm x s

end Sys2Proof.Machine
end

