-- ==== Sys2Proof/Machine/Cycle.lean ====
section
/-! DEFINITION. The fetch-decode-execute cycle (spec 40_cycle.md). -/
namespace Sys2Proof.Machine

/-- Decode and execute a fetched word; a word no pattern matches changes nothing and emits `Unrecognized` (R105, R106,
R107). -/
def executeWord (w : Word) (s : State) : Result :=
  match decodeWord w with
  | .ok i => exec i s
  | .error _ => .next (s.emit (.unrecognized w))

/-- The end of a step (R100): a hard fault raised in the execute phase undoes the step (R110), else the post-step
follows (R108). -/
def finishStep (snapshot t : State) : State :=
  match t.halted with
  | some cause => abortStep cause snapshot
  | none => timerTick t

/-- What the outcome of the execute phase makes of the step. -/
def finishResult (snapshot : State) : Result → Result
  | .next t => .next (finishStep snapshot t)
  | .fault r => .fault r
  | .refused r => .refused r

/-- The state the execute phase starts from: no output yet, pc advanced by 2 (R100, R104). -/
def State.preStep (s : State) : State := s.clearOutputs.advancePc

/-- `step()` of R100. A halted block changes no state and gives no output (R101). -/
def cycle (s : State) : Result :=
  match s.halted with
  | some _ => .next s.clearOutputs
  | none =>
    match s.fetch with
    | none => .next (abortStep .fetchOutOfRange s)
    | some w => finishResult s (executeWord w s.preStep)

end Sys2Proof.Machine
end

