-- ==== Sys2Proof/Machine/Step.lean ====
section
/-! DEFINITION. One step of the machine, and the placing of an instruction where the next step fetches. -/
namespace Sys2Proof.Machine

/-- `step` (spec 40_cycle.md R100). -/
def step (s : State) : Host.Outcome State Fault Refusal := cycle s

/-- `s` with the word whose bits are `w` (numbered as spec/opcode_table.json numbers them) stored big-endian at pc, where
the next step fetches; a halted block fetches nothing, so `halted` is cleared (notes/assumptions/19.md). -/
def State.withFetchWord (s : State) (nbits w : Nat) : State :=
  { s with
    mem := Memory.writeBytes s.pc.toNat [highByte (tableWord nbits w), lowByte (tableWord nbits w)] s.mem
    halted := none }

end Sys2Proof.Machine
end

