-- ==== Sys2Proof/Machine/Environment.lean ====
section
/-! DEFINITION. What the host does to the block between steps besides initialize (`Ops.lean`) and step: load a program and
report key events (spec 10_state.md R40, R41; 70_reset_and_hazards.md R262 to R264; notes/assumptions/20.md). -/
namespace Sys2Proof.Machine

/-- The output of load (10_state.md R42). -/
inductive LoadResult where
  | ok
  | loadError
  deriving DecidableEq, Repr

/-- `load(bytes)` (R262): byte i to 0x200 + i; more than 3584 bytes are rejected whole (R263). -/
def load (bytes : List Byte) (s : State) : LoadResult × State :=
  if wellFormedProgram bytes then (.ok, { s with mem := Memory.writeBytes Config.progBase bytes s.mem })
  else (.loadError, s)

/-- A key-down (true) or key-up (false) event for key k (10_state.md R41). -/
def setKey (k : Fin 16) (down : Bool) (s : State) : State := { s with keys := s.keys.set k down }

end Sys2Proof.Machine
end

