-- ==== Sys2Proof/Safety.lean ====
section
/-! DEFINITION. The terms in which claims about runs are made: which instruction a state is about to run, what an
instruction may write and what it leaves alone, the parked state, and the invariant that rules out states no run
reaches. -/
namespace Sys2Proof.Machine

/-- The block is running: it has not taken a hard fault since initialize (spec 10_state.md R36). -/
abbrev State.Running (s : State) : Prop := s.halted = none

/-- The next step of `s` fetches the word `w` (40_cycle.md R102). -/
abbrev State.Fetches (s : State) (w : Word) : Prop := s.Running ∧ s.fetch = some w

/-- The next step of `s` executes the instruction `i` (40_cycle.md R102, R105). -/
abbrev State.Runs (s : State) (i : Instr) : Prop := ∃ w, s.Fetches w ∧ decodeWord w = .ok i

/-- What an instruction may write. `stack` is SP with the slots; `rnd` is the model's counter of RND readings. -/
structure Effects where
  regs : List Reg := []
  bytes : List Nat := []
  index : Bool := false
  pc : Bool := false
  stack : Bool := false
  dt : Bool := false
  st : Bool := false
  display : Bool := false
  halted : Bool := false
  diags : Bool := false
  rnd : Bool := false
  deriving DecidableEq, Repr

/-- Everything an instruction with these effects leaves as it was: every register not named, every byte of memory at an
address not named, every other element of the state, the keys always (10_state.md R30), the beep always (it is the
tick's), the parameter SUBN_UNDERFLOW always (00_scope.md R9). -/
structure Frame (e : Effects) (s t : State) : Prop where
  regs : ∀ r, r ∉ e.regs → t.readV r = s.readV r
  bytes : ∀ a, a ∉ e.bytes → t.byteAt a = s.byteAt a
  index : e.index = false → t.index = s.index
  pc : e.pc = false → t.pc = s.pc
  sp : e.stack = false → t.sp = s.sp
  slots : e.stack = false → t.stack = s.stack
  dt : e.dt = false → t.dt = s.dt
  st : e.st = false → t.st = s.st
  display : e.display = false → t.display = s.display
  halted : e.halted = false → t.halted = s.halted
  diags : e.diags = false → t.diags = s.diags
  rnd : e.rnd = false → t.rndIndex = s.rndIndex
  keys : t.keys = s.keys
  beep : t.beep = s.beep
  subnUnderflow : t.subnUnderflow = s.subnUnderflow

/-- The registers an instruction may write: its destination, VF for the flag writers (10_state.md R21), V0..Vx for
LD Vx,[I] (43_index_memory.md R175). -/
def writtenRegs : Instr → List Reg
  | .ldi x _ | .addi x _ | .ldr x _ | .or x _ | .and x _ | .xor x _ | .rnd x _ | .ldvdt x | .ldvk x => [x]
  | .add x _ | .sub x _ | .shr x _ | .subn x _ | .shl x _ => [x, vf]
  | .drw _ _ _ => [vf]
  | .ldm x => (List.finRange 16).filter (· ≤ x)
  | .cls | .ret | .jp _ | .call _ | .sei _ _ | .snei _ _ | .ser _ _ | .sner _ _ | .ldidx _ | .jpv0 _ | .skp _ | .sknp _
  | .lddtv _ | .ldstv _ | .addidx _ | .ldf _ | .ldb _ | .stm _ => []

/-- SUBN Vx,Vy from `s` is below 0: V[y] < V[x], both read after the flag write (42_alu.md R151). -/
def State.SubnBelowZero (s : State) (x y : Reg) : Prop :=
  let s' := s.writeV vf (if (s.readV y).toNat > (s.readV x).toNat then 1 else 0)
  (s'.readV y).toNat < (s'.readV x).toNat

/-- What address `a` of memory reads as once `bytes` are stored at I, I+1, … (43_index_memory.md R173, R174): a byte stored
where they cover `a`, else what it held. -/
def State.afterStoreAtI (s : State) (bytes : List Byte) (a : Nat) : Option Byte :=
  if s.index.toNat ≤ a ∧ a < s.index.toNat + bytes.length then bytes[a - s.index.toNat]? else s.byteAt a

/-- The bytes an instruction stores at I, I+1, …: the digits of LD B (43_index_memory.md R173), V0..Vx of LD [I] (R174). -/
def State.storedBytes (s : State) : Instr → List Byte
  | .ldb x => [(s.readV x).toNat / 100, (s.readV x).toNat / 10 % 10, (s.readV x).toNat % 10].map (BitVec.ofNat 8)
  | .stm x => ((List.finRange 16).filter (· ≤ x)).map s.readV
  | .cls | .ret | .jp _ | .call _ | .sei _ _ | .snei _ _ | .ser _ _ | .ldi _ _ | .addi _ _ | .ldr _ _ | .or _ _ | .and _ _
  | .xor _ _ | .add _ _ | .sub _ _ | .shr _ _ | .subn _ _ | .shl _ _ | .sner _ _ | .ldidx _ | .jpv0 _ | .rnd _ _
  | .drw _ _ _ | .skp _ | .sknp _ | .ldvdt _ | .ldvk _ | .lddtv _ | .ldstv _ | .addidx _ | .ldf _ | .ldm _ => []

/-- The parked end state (70_reset_and_hazards.md R272(b)): not halted, pc ≤ 0xFFE, the word at pc is 0x1nnn with
nnn = pc, both timers 0. -/
structure State.Parked (s : State) : Prop where
  running : s.Running
  pc : s.pc.toNat ≤ 0xFFE
  jump : s.fetch = some (0x1000 ||| s.pc)
  dt : s.dt = 0
  st : s.st = 0

/-- The sprite of a draw at (vx, vy) with n rows has a set bit on column c, row r, on or off the display: bit k of the
row-i byte, read at I + i, falls on column (vx mod 64) + k and row (vy mod 32) + i (44_display.md R191). -/
def State.SpriteCovers (s : State) (vx vy : Byte) (n : Nibble) (c r : Nat) : Prop :=
  ∃ i k b, i < n.toNat ∧ k < 8 ∧ s.byteAt (s.effAddr i) = some b ∧ b.getMsbD k = true ∧
    c = vx.toNat % 64 + k ∧ r = vy.toNat % 32 + i

/-- What holds of every state a run reaches: memory in canonical form; pc at most 0x10FE (10_state.md R23); return
addresses at most 0x1000 (41_flow.md R121); a halted state's cause agrees with pc and SP (60_exceptions.md R236 to R238),
and is SubnUnderflow only where SUBN_UNDERFLOW is `fault` (R239). -/
structure State.Inv (s : State) : Prop where
  mem : Memory.wf s.mem
  pc : s.pc.toNat ≤ 0x10FE
  slots : ∀ k : Fin 16, s.stack[k].toNat ≤ 0x1000
  fetchFault : s.halted = some .fetchOutOfRange → 0xFFF ≤ s.pc.toNat
  overflow : s.halted = some .stackOverflow → s.sp.val = 16
  underflow : s.halted = some .stackUnderflow → s.sp.val = 0
  subn : s.halted = some .subnUnderflow → s.subnUnderflow = .fault

end Sys2Proof.Machine
end

