-- ==== Sys2Proof/Certificates/Slice0/Obligations.lean ====
section
/-! DEFINITION. The statements for the provers. Each docstring names the rules of spec/ it formalises, and, where a clause
rests on a choice of the spec's own (a decision D<n> of 92_eei_decisions.md) or of the model's (notes/assumptions), that
choice. -/

open Sys2Proof Sys2Proof.Machine

/-! ### Encoding -/

/-- Decoding the encoding of an instruction gives it back, from the word (R80, R81) and from the front of any bytes (R70).
The bits the decoder ignores are the model's choice (notes/assumptions/18.md). -/
def Obligations.DecodeOfEncodeGivesTheInstruction : Prop :=
  ∀ (i : Instr) (rest : List Byte),
    decodeWord (encode i) = .ok i ∧ decode (encodeBytes i ++ rest) = .ok (i, rest)

/-- Encoding what was decoded gives back every bit of the word that the decoder examines: no field is dropped or moved
(R71, R73, R76, R79; which bits are not examined rests on D10 and D11). -/
def Obligations.EncodeOfDecodeKeepsExaminedBits : Prop :=
  ∀ (w : Word) (i : Instr), decodeWord w = .ok i → encode i &&& examinedBits i = w &&& examinedBits i

/-- The decoder and the opcode map of R81 agree: a word decodes exactly when a row selects it, and then exactly one row
does, that of the instruction decoded (the rows' disjointness of R80 is the spec's own inference). -/
def Obligations.DecodeAgreesWithTheOpcodeMap : Prop :=
  ∀ w : Word, (wellFormedWord w = true ↔ ∃ i, decodeWord w = .ok i) ∧
    ∀ i, decodeWord w = .ok i → ∀ r ∈ opcodeTable, (r.selects w = true ↔ r = rowOf i)

/-- The unrecognized words are exactly those of R82, each rejected by name (the list is the spec's own inference from R76
to R79). -/
def Obligations.UnrecognizedWordsAreThoseOfTheList : Prop :=
  ∀ w : Word, decodeWord w = .error (.unrecognized w) ↔
    (w.toNat / 4096 = 0x0 ∧ w.toNat % 16 ≠ 0x0 ∧ w.toNat % 16 ≠ 0xE) ∨
    (w.toNat / 4096 = 0x8 ∧ w.toNat % 16 ∈ [0x8, 0x9, 0xA, 0xB, 0xC, 0xD, 0xF]) ∨
    (w.toNat / 4096 = 0xE ∧ w.toNat % 256 ≠ 0x9E ∧ w.toNat % 256 ≠ 0xA1) ∨
    (w.toNat / 4096 = 0xF ∧ w.toNat % 256 ∉ [0x07, 0x0A, 0x15, 0x18, 0x1E, 0x29, 0x33, 0x55, 0x65])

/-- Words written out from R81, at least one of each of the 16 families, and three unrecognized ones; 0x00E0, 0x00EE,
0x0120, 0x1FFF, 0x5121, 0x8AB6, 0x800E, 0x9AB7, 0xB123, 0xE19E, 0xE1A1, 0xFF65, 0x8008, 0xE10E and 0xF130 are decode vectors of
95_test_vectors.md 2.1. What 0x0120 and 0x5121 decode to rests on D10 and D11 (notes/assumptions/9.md), the words of families
E and F on D12 and D13 (notes/assumptions/10.md). -/
def Obligations.WrittenWordsDecode : Prop :=
  (decodeWord 0x00E0 = .ok .cls ∧ decodeWord 0x00EE = .ok .ret ∧ decodeWord 0x0120 = .ok .cls) ∧
  (decodeWord 0x1FFF = .ok (.jp 0xFFF) ∧ decodeWord 0x2300 = .ok (.call 0x300)) ∧
  (decodeWord 0x332A = .ok (.sei 3 0x2A) ∧ decodeWord 0x4CA1 = .ok (.snei 12 0xA1) ∧ decodeWord 0x5121 = .ok (.ser 1 2)) ∧
  (decodeWord 0x6A42 = .ok (.ldi 10 0x42) ∧ decodeWord 0x7120 = .ok (.addi 1 0x20)) ∧
  (decodeWord 0x8AB6 = .ok (.shr 10 11) ∧ decodeWord 0x8127 = .ok (.subn 1 2) ∧ decodeWord 0x800E = .ok (.shl 0 0)) ∧
  (decodeWord 0x9AB7 = .ok (.sner 10 11) ∧ decodeWord 0xA2F0 = .ok (.ldidx 0x2F0) ∧ decodeWord 0xB123 = .ok (.jpv0 0x123)) ∧
  (decodeWord 0xC30F = .ok (.rnd 3 0x0F) ∧ decodeWord 0xD015 = .ok (.drw 0 1 5)) ∧
  (decodeWord 0xE19E = .ok (.skp 1) ∧ decodeWord 0xE1A1 = .ok (.sknp 1)) ∧
  (decodeWord 0xF40A = .ok (.ldvk 4) ∧ decodeWord 0xF255 = .ok (.stm 2) ∧ decodeWord 0xFF65 = .ok (.ldm 15)) ∧
  (decodeWord 0x8008 = .error (.unrecognized 0x8008) ∧ decodeWord 0xE10E = .error (.unrecognized 0xE10E) ∧
    decodeWord 0xF130 = .error (.unrecognized 0xF130))

/-! ### The step -/

/-- Fetch (R53, R56): the byte at pc is the high byte, the byte at pc + 1 the low byte, at any alignment; at pc ≥ 0xFFF
there is no word (that this is a fault is D6). -/
def Obligations.FetchReadsTheBigEndianWord : Prop :=
  ∀ s : State,
    (s.pc.toNat ≤ 0xFFE → ∃ hi lo : Byte, s.byteAt s.pc.toNat = some hi ∧ s.byteAt (s.pc.toNat + 1) = some lo ∧
      ∃ w, s.fetch = some w ∧ w.toNat = 256 * hi.toNat + lo.toNat) ∧
    (0xFFF ≤ s.pc.toNat → s.fetch = none)

/-- A step runs the instruction at pc (R100, R104, R106, R108, R110): the execute phase starts with no output and pc
advanced by 2; if it raises no hard fault the timers tick and the beep is given, else the state before the step is
restored and the cause recorded (D35). -/
def Obligations.StepRunsTheDecodedInstruction : Prop :=
  ∀ (s : State) (i : Instr), s.Runs i →
    ∃ t, exec i { s with pc := s.pc + 2, beep := false, diags := [] } = .next t ∧
      step s = .next (match t.halted with
        | some c => { s with halted := some c, beep := false, diags := [] }
        | none => { t with
            beep := decide (t.st = 1)
            dt := if t.dt = 0 then 0 else t.dt - 1
            st := if t.st = 0 then 0 else t.st - 1 })

/-- A word no pattern matches (R107): pc advances by 2, the timers tick (D32, 90_conflicts.md C5), one diagnostic, and
nothing else. -/
def Obligations.UnrecognizedWordOnlyAdvancesPc : Prop :=
  ∀ (s : State) (w : Word) (e : DecodeError), s.Fetches w → decodeWord w = .error e →
    step s = .next { s with
      pc := s.pc + 2
      dt := if s.dt = 0 then 0 else s.dt - 1
      st := if s.st = 0 then 0 else s.st - 1
      beep := decide (s.st = 1)
      diags := [.unrecognized w] }

/-- A fetch outside memory is a hard fault (R102, R238; D6): nothing changes but `halted`, and the outputs are empty. -/
def Obligations.FetchOutsideMemoryHalts : Prop :=
  ∀ s : State, s.Running → 0xFFF ≤ s.pc.toNat →
    step s = .next { s with halted := some .fetchOutOfRange, beep := false, diags := [] }

/-- A step of a halted block changes no state and gives no output (R101; D5). -/
def Obligations.HaltedStepChangesNothing : Prop :=
  ∀ (s : State) (c : HaltCause), s.halted = some c → step s = .next { s with beep := false, diags := [] }

/-- CALL at SP = 16 and RET at SP = 0 are hard faults that undo the whole step (R110, R237; D4, D35). -/
def Obligations.StackFaultsHaltWithTheStateBefore : Prop :=
  ∀ s : State,
    ((∃ nnn, s.Runs (.call nnn)) → s.sp.val = 16 →
      step s = .next { s with halted := some .stackOverflow, beep := false, diags := [] }) ∧
    (s.Runs .ret → s.sp.val = 0 →
      step s = .next { s with halted := some .stackUnderflow, beep := false, diags := [] })

/-- A running block halts only by a hard fault, which leaves exactly the state before the step, and each cause has its
reason (R236 to R239, R110; D4 to D6, D35); SubnUnderflow has it only where SUBN_UNDERFLOW is `fault` (D16). -/
def Obligations.HaltingIsPreciseAndHasItsCause : Prop :=
  ∀ (s t : State) (c : HaltCause), s.Running → step s = .next t → t.halted = some c →
    t = { s with halted := some c, beep := false, diags := [] } ∧
    ((c = .fetchOutOfRange ∧ 0xFFF ≤ s.pc.toNat) ∨
     (c = .stackOverflow ∧ s.sp.val = 16 ∧ ∃ nnn, s.Runs (.call nnn)) ∨
     (c = .stackUnderflow ∧ s.sp.val = 0 ∧ s.Runs .ret) ∨
     (c = .subnUnderflow ∧ s.subnUnderflow = .fault ∧ ∃ x y, s.Runs (.subn x y) ∧ s.SubnBelowZero x y))

/-- A step always completes, in every state (R111); that a hard fault is a next state is the model's reading
(notes/assumptions/3.md). -/
def Obligations.EveryStepCompletes : Prop :=
  ∀ s : State, ∃ t, step s = .next t

/-- The timers (R243): in a step that completes, each falls by 1 unless 0, from its value before the step or, for LD DT
and LD ST, from the register just copied; a beep exactly when the sound timer's value before its decrement is 1; in a
step that faults or is taken halted, neither ticks and there is no beep (R108, R216, R217, R110, R101). That unrecognized
words and the rewinding key-wait tick is D32, that a faulting step does not is D35 (notes/assumptions/17.md), the halted
step is D5. -/
def Obligations.TimersTickOncePerCompletedStep : Prop :=
  ∀ s t : State, step s = .next t →
    (s.Running → t.Running →
      ((∀ x, ¬ s.Runs (.lddtv x)) → t.dt.toNat = s.dt.toNat - 1) ∧
      (∀ x, s.Runs (.lddtv x) → t.dt.toNat = (s.readV x).toNat - 1) ∧
      ((∀ x, ¬ s.Runs (.ldstv x)) → t.st.toNat = s.st.toNat - 1 ∧ (t.beep = true ↔ s.st.toNat = 1)) ∧
      (∀ x, s.Runs (.ldstv x) → t.st.toNat = (s.readV x).toNat - 1 ∧ (t.beep = true ↔ (s.readV x).toNat = 1))) ∧
    (¬ (s.Running ∧ t.Running) → t.dt = s.dt ∧ t.st = s.st ∧ t.beep = false)

/-- A parked state is a fixed point of the step: nothing changes and nothing is emitted (R272; D39). -/
def Obligations.ParkedStateIsAFixedPoint : Prop :=
  ∀ s : State, s.Parked → step s = .next { s with beep := false, diags := [] }

/-! ### Control transfer -/

/-- JP nnn (R122): pc is the 12-bit address and nothing else changes in the execute phase. -/
def Obligations.JumpSetsPc : Prop :=
  ∀ (nnn : Addr12) (s : State), ∃ t, exec (.jp nnn) s = .next t ∧
    t.pc.toNat = nnn.toNat ∧ Frame { pc := true } s t

/-- JP V0,nnn (R128): pc is nnn + V0, never masked to 12 bits (D38). -/
def Obligations.JumpWithOffsetAddsV0 : Prop :=
  ∀ (nnn : Addr12) (s : State), ∃ t, exec (.jpv0 nnn) s = .next t ∧
    t.pc.toNat = nnn.toNat + (s.readV 0).toNat ∧ Frame { pc := true } s t

/-- CALL nnn (R123): with a free slot, pc is pushed into S[SP], SP rises by 1 and pc is nnn; at SP = 16 StackOverflow is
raised and nothing else changes (D4). -/
def Obligations.CallPushesAndJumps : Prop :=
  ∀ (nnn : Addr12) (s : State),
    (s.sp.val < 16 → ∃ t, exec (.call nnn) s = .next t ∧
      t.sp.val = s.sp.val + 1 ∧ t.pc.toNat = nnn.toNat ∧
      (∀ k : Fin 16, t.stack[k] = if k.val = s.sp.val then s.pc else s.stack[k]) ∧
      Frame { pc := true, stack := true } s t) ∧
    (s.sp.val = 16 → exec (.call nnn) s = .next { s with halted := some .stackOverflow })

/-- RET (R121): SP falls by 1 and pc is the slot it then names, whose contents stay (D31); at SP = 0 StackUnderflow is
raised and nothing else changes (D4). -/
def Obligations.ReturnPopsPc : Prop :=
  ∀ s : State,
    (0 < s.sp.val → ∃ t, exec .ret s = .next t ∧
      t.sp.val = s.sp.val - 1 ∧ (∀ k : Fin 16, k.val = s.sp.val - 1 → t.pc = s.stack[k]) ∧ t.stack = s.stack ∧
      Frame { pc := true, stack := true } s t) ∧
    (s.sp.val = 0 → exec .ret s = .next { s with halted := some .stackUnderflow })

/-- A return undoes a call: from any state that has the stack and SP a CALL left, RET comes back to the address after the
CALL with the SP from before it (R121, R123, R129). -/
def Obligations.ReturnComesBackFromCall : Prop :=
  ∀ (nnn : Addr12) (s : State), s.sp.val < 16 → ∃ t, exec (.call nnn) s = .next t ∧
    ∀ t' : State, t'.stack = t.stack → t'.sp = t.sp →
      ∃ u, exec .ret t' = .next u ∧ u.pc = s.pc ∧ u.sp = s.sp

/-- SE Vx,kk and SNE Vx,kk (R124, R125): one more advance by 2 when the comparison holds; nothing else changes. -/
def Obligations.ImmediateSkips : Prop :=
  ∀ (x : Reg) (kk : Byte) (s : State),
    exec (.sei x kk) s = .next (if s.readV x = kk then { s with pc := s.pc + 2 } else s) ∧
    exec (.snei x kk) s = .next (if s.readV x = kk then s else { s with pc := s.pc + 2 })

/-- SE Vx,Vy and SNE Vx,Vy (R126, R127), for every low nibble of the word (D11); with x = y the first always skips and
the second never does. -/
def Obligations.RegisterSkips : Prop :=
  (∀ (x y : Reg) (s : State),
    exec (.ser x y) s = .next (if s.readV x = s.readV y then { s with pc := s.pc + 2 } else s) ∧
    exec (.sner x y) s = .next (if s.readV x = s.readV y then s else { s with pc := s.pc + 2 })) ∧
  (∀ (x : Reg) (s : State),
    exec (.ser x x) s = .next { s with pc := s.pc + 2 } ∧ exec (.sner x x) s = .next s) ∧
  (∀ w : Word, (w.toNat / 4096 = 0x5 → decodeWord w = .ok (.ser (fieldX w) (fieldY w))) ∧
    (w.toNat / 4096 = 0x9 → decodeWord w = .ok (.sner (fieldX w) (fieldY w))))

/-! ### ALU -/

/-- LD Vx,kk and ADD Vx,kk (R142, R143): the immediate, or the sum modulo 256, in Vx; no flag is written, and nothing but
Vx changes. -/
def Obligations.ImmediateLoadAndAdd : Prop :=
  ∀ (x : Reg) (kk : Byte) (s : State),
    (∃ t, exec (.ldi x kk) s = .next t ∧ t.readV x = kk ∧ Frame { regs := [x] } s t) ∧
    (∃ t, exec (.addi x kk) s = .next t ∧
      (t.readV x).toNat = ((s.readV x).toNat + kk.toNat) % 256 ∧ Frame { regs := [x] } s t)

/-- LD Vx,Vy (R144): Vx is Vy and nothing else changes. -/
def Obligations.RegisterAssign : Prop :=
  ∀ (x y : Reg) (s : State), ∃ t, exec (.ldr x y) s = .next t ∧ t.readV x = s.readV y ∧ Frame { regs := [x] } s t

/-- OR, AND and XOR (R145 to R147), bit by bit; no flag is written unless x = F (D34). -/
def Obligations.BitwiseOperations : Prop :=
  ∀ (x y : Reg) (s : State),
    (∃ t, exec (.or x y) s = .next t ∧ Frame { regs := [x] } s t ∧
      ∀ k, (t.readV x).getLsbD k = ((s.readV x).getLsbD k || (s.readV y).getLsbD k)) ∧
    (∃ t, exec (.and x y) s = .next t ∧ Frame { regs := [x] } s t ∧
      ∀ k, (t.readV x).getLsbD k = ((s.readV x).getLsbD k && (s.readV y).getLsbD k)) ∧
    (∃ t, exec (.xor x y) s = .next t ∧ Frame { regs := [x] } s t ∧
      ∀ k, (t.readV x).getLsbD k = ((s.readV x).getLsbD k != (s.readV y).getLsbD k))

/-- ADD Vx,Vy (R148) with each of its corner cases; the cases that name VF rest on the order of R141 (D14). -/
def Obligations.AddWithCarry : Prop :=
  ∀ (x y : Reg) (s : State) (c : Nat),
    c = (if (s.readV x).toNat + (s.readV y).toNat > 255 then 1 else 0) →
    ∃ t, exec (.add x y) s = .next t ∧ Frame { regs := [x, vf] } s t ∧
      (x ≠ vf → y ≠ vf →
        (t.readV vf).toNat = c ∧ (t.readV x).toNat = ((s.readV x).toNat + (s.readV y).toNat) % 256) ∧
      (x = vf → y ≠ vf → (t.readV vf).toNat = (c + (s.readV y).toNat) % 256) ∧
      (x ≠ vf → y = vf → (t.readV vf).toNat = c ∧ (t.readV x).toNat = ((s.readV x).toNat + c) % 256) ∧
      (x = vf → y = vf → (t.readV vf).toNat = 2 * c)

/-- SUB (R149) with each of its corner cases, the flag strict; the cases that name VF rest on the order of R141 (D14). -/
def Obligations.SubtractWithBorrow : Prop :=
  ∀ (x y : Reg) (s : State) (b : Nat),
    b = (if (s.readV x).toNat > (s.readV y).toNat then 1 else 0) →
    ∃ t, exec (.sub x y) s = .next t ∧ Frame { regs := [x, vf] } s t ∧
      (x ≠ vf → y ≠ vf →
        (t.readV vf).toNat = b ∧ (t.readV x).toNat = (256 + (s.readV x).toNat - (s.readV y).toNat) % 256) ∧
      (x = vf → y ≠ vf → (t.readV vf).toNat = (256 + b - (s.readV y).toNat) % 256) ∧
      (x ≠ vf → y = vf → (t.readV vf).toNat = b ∧ (t.readV x).toNat = (256 + (s.readV x).toNat - b) % 256) ∧
      (x = vf → y = vf → (t.readV vf).toNat = 0)

/-- SUBN (R151) with each of its corner cases under SUBN_UNDERFLOW = wrap (D16; the other value is the next statement's);
the cases that name VF rest on the order of R141 (D14). -/
def Obligations.ReverseSubtractWraps : Prop :=
  ∀ (x y : Reg) (s : State) (f : Nat), s.subnUnderflow = .wrap →
    f = (if (s.readV y).toNat > (s.readV x).toNat then 1 else 0) →
    ∃ t, exec (.subn x y) s = .next t ∧ Frame { regs := [x, vf] } s t ∧
      (x ≠ vf → y ≠ vf →
        (t.readV vf).toNat = f ∧ (t.readV x).toNat = (256 + (s.readV y).toNat - (s.readV x).toNat) % 256) ∧
      (x = vf → y ≠ vf → (t.readV vf).toNat = (s.readV y).toNat - f) ∧
      (x ≠ vf → y = vf → (t.readV vf).toNat = f ∧ (t.readV x).toNat = (256 + f - (s.readV x).toNat) % 256) ∧
      (x = vf → y = vf → (t.readV vf).toNat = 0)

/-- SUBN under SUBN_UNDERFLOW = fault (R239, R151; D16): the step that runs it raises SubnUnderflow exactly when V[y] < V[x]
as they are after the flag write, and is then undone (D35); otherwise the difference is exact, as under `wrap`, and nothing
but Vx and VF changes. The order of flag and result is that of R141 (D14). -/
def Obligations.SubnFaultPolicyFaultsExactlyOnUnderflow : Prop :=
  ∀ (x y : Reg) (s : State), s.subnUnderflow = .fault →
    (s.SubnBelowZero x y →
      (∃ t, exec (.subn x y) s = .next t ∧ t.halted = some .subnUnderflow) ∧
      (s.Runs (.subn x y) → step s = .next { s with halted := some .subnUnderflow, beep := false, diags := [] })) ∧
    (¬ s.SubnBelowZero x y →
      ∃ t, exec (.subn x y) s = .next t ∧ Frame { regs := [x, vf] } s t ∧
        exec (.subn x y) { s with subnUnderflow := .wrap } = .next { t with subnUnderflow := .wrap } ∧
        ∀ f : Nat, f = (if (s.readV y).toNat > (s.readV x).toNat then 1 else 0) →
          (x ≠ vf → y ≠ vf → (t.readV vf).toNat = f ∧ (t.readV x).toNat = (s.readV y).toNat - (s.readV x).toNat) ∧
          (x = vf → y ≠ vf → (t.readV vf).toNat = (s.readV y).toNat - f) ∧
          (x ≠ vf → y = vf → (t.readV vf).toNat = f ∧ (t.readV x).toNat = f - (s.readV x).toNat) ∧
          (x = vf → y = vf → (t.readV vf).toNat = 0))

/-- SHR (R150) and SHL (R152): the source is Vx and y is ignored; SHL's flag is bit 4 of Vx in place (D15); with x = F the
order of R141 decides (D14). -/
def Obligations.ShiftsOfVx : Prop :=
  ∀ (x y y' : Reg) (s : State),
    (∃ t, exec (.shr x y) s = .next t ∧ exec (.shr x y') s = .next t ∧ Frame { regs := [x, vf] } s t ∧
      (x ≠ vf → (t.readV vf).toNat = (s.readV x).toNat % 2 ∧ (t.readV x).toNat = (s.readV x).toNat / 2) ∧
      (x = vf → (t.readV vf).toNat = 0)) ∧
    (∃ t, exec (.shl x y) s = .next t ∧ exec (.shl x y') s = .next t ∧ Frame { regs := [x, vf] } s t ∧
      (x ≠ vf → (t.readV vf).toNat = 0x10 * ((s.readV x).toNat / 16 % 2) ∧
        (t.readV x).toNat = 2 * (s.readV x).toNat % 256) ∧
      (x = vf → (t.readV vf).toNat = 0x20 * ((s.readV vf).toNat / 16 % 2)))

/-- RND Vx,kk (R154): Vx is this step's RND byte masked by kk, so no bit outside kk is set; the byte is free (D22,
notes/assumptions/1.md), and each reading takes a fresh one. -/
def Obligations.RandomByteIsMasked : Prop :=
  ∀ (x : Reg) (kk : Byte) (s : State), ∃ t, exec (.rnd x kk) s = .next t ∧
    t.readV x = Config.rndByte s.rndIndex &&& kk ∧ t.readV x &&& ~~~kk = 0 ∧
    t.rndIndex = s.rndIndex + 1 ∧ Frame { regs := [x], rnd := true } s t

/-- Only RND reads the random input (R43, R111; D22): every other instruction does the same at any position of the
stream, and leaves the position alone. -/
def Obligations.OnlyRndReadsTheRandomInput : Prop :=
  ∀ (i : Instr) (s t : State) (n : Nat), (∀ x kk, i ≠ .rnd x kk) → exec i s = .next t →
    exec i { s with rndIndex := n } = .next { t with rndIndex := n } ∧ t.rndIndex = s.rndIndex

/-! ### Index register and memory transfer -/

/-- LD I,nnn (R170): I is the 12-bit address and nothing else changes. -/
def Obligations.LoadIndex : Prop :=
  ∀ (nnn : Addr12) (s : State), ∃ t, exec (.ldidx nnn) s = .next t ∧
    t.index.toNat = nnn.toNat ∧ Frame { index := true } s t

/-- ADD I,Vx (R171), modulo 2^16 and with no flag (D17), and LD F,Vx (R172), Vx not masked (D33). -/
def Obligations.IndexArithmetic : Prop :=
  ∀ (x : Reg) (s : State),
    (∃ t, exec (.addidx x) s = .next t ∧
      t.index.toNat = (s.index.toNat + (s.readV x).toNat) % 65536 ∧ Frame { index := true } s t) ∧
    (∃ t, exec (.ldf x) s = .next t ∧
      t.index.toNat = 0x50 + 5 * (s.readV x).toNat ∧ Frame { index := true } s t)

/-- LD B,Vx (R173): hundreds, tens and ones at I, I+1, I+2; each byte outside memory is skipped with its own diagnostic,
in address order (D8); no other byte and nothing else changes. -/
def Obligations.StoreBcdDigits : Prop :=
  ∀ (x : Reg) (s : State), Memory.wf s.mem → ∃ t, exec (.ldb x) s = .next t ∧
    (∀ k < 3, s.effAddr k < 4096 → ∃ b, t.byteAt (s.effAddr k) = some b ∧
      (k = 0 → b.toNat = (s.readV x).toNat / 100) ∧
      (k = 1 → b.toNat = (s.readV x).toNat / 10 % 10) ∧
      (k = 2 → b.toNat = (s.readV x).toNat % 10)) ∧
    t.diags = s.diags ++ (([0, 1, 2].map s.effAddr).filter (4096 ≤ ·)).map (.memOutOfRange · .write) ∧
    Frame { bytes := [0, 1, 2].map s.effAddr, diags := true } s t

/-- LD [I],Vx (R174): V0..Vx at I..I+x; each byte outside memory is skipped with its own diagnostic, in address order
(D8); I, every other byte and everything else is unchanged. -/
def Obligations.StoreRegisters : Prop :=
  ∀ (x : Reg) (s : State), Memory.wf s.mem → ∃ t, exec (.stm x) s = .next t ∧
    (∀ r : Reg, r ≤ x → s.effAddr r.val < 4096 → t.byteAt (s.effAddr r.val) = some (s.readV r)) ∧
    t.diags = s.diags ++
      (((List.range (x.val + 1)).map s.effAddr).filter (4096 ≤ ·)).map (.memOutOfRange · .write) ∧
    Frame { bytes := (List.range (x.val + 1)).map s.effAddr, diags := true } s t

/-- LD Vx,[I] (R175): V0..Vx from I..I+x; a byte outside memory leaves its register unchanged with its own diagnostic, in
address order (D8); I (D18), every other register and everything else is unchanged. -/
def Obligations.LoadRegisters : Prop :=
  ∀ (x : Reg) (s : State), ∃ t, exec (.ldm x) s = .next t ∧
    (∀ r : Reg, r ≤ x → t.readV r = (s.byteAt (s.effAddr r.val)).getD (s.readV r)) ∧
    t.diags = s.diags ++
      (((List.range (x.val + 1)).map s.effAddr).filter (4096 ≤ ·)).map (.memOutOfRange · .read) ∧
    Frame { regs := (List.finRange 16).filter (· ≤ x), diags := true } s t

/-- Registers stored by LD [I],Vx come back by LD Vx,[I], whatever the registers hold in between (R174, R175). -/
def Obligations.StoredRegistersLoadBack : Prop :=
  ∀ (x : Reg) (s : State), Memory.wf s.mem → s.effAddr x.val < 4096 → ∃ t, exec (.stm x) s = .next t ∧
    ∀ v' : Vector Byte 16, ∃ u, exec (.ldm x) { t with v := v' } = .next u ∧
      (∀ r : Reg, r ≤ x → u.readV r = s.readV r) ∧ (∀ r : Reg, x < r → u.readV r = v'[r])

/-- A store is seen by the very next fetch (R64, R269; D30): after a step that runs LD B,Vx or LD [I],Vx, for every x and
every I, the next word is made of the bytes at pc + 2 and pc + 3 as the store left them, the stored ones where it covers
them and the old ones elsewhere. -/
def Obligations.StoreIsSeenByTheNextFetch : Prop :=
  ∀ (x : Reg) (s : State) (i : Instr), i = .ldb x ∨ i = .stm x → Memory.wf s.mem → s.Runs i → s.pc.toNat ≤ 0xFFC →
    ∃ t hi lo w, step s = .next t ∧ t.pc.toNat = s.pc.toNat + 2 ∧
      s.afterStoreAtI (s.storedBytes i) (s.pc.toNat + 2) = some hi ∧
      s.afterStoreAtI (s.storedBytes i) (s.pc.toNat + 3) = some lo ∧
      t.fetch = some w ∧ w.toNat = 256 * hi.toNat + lo.toNat

/-! ### Display -/

/-- CLS (R190): all 2048 cells are off and nothing else changes. -/
def Obligations.ClearTurnsEveryCellOff : Prop :=
  ∀ s : State, ∃ t, exec .cls s = .next t ∧ (∀ k < 2048, t.cell k = false) ∧ Frame { display := true } s t

/-- DRW (R191, R192, R195): a cell changes exactly when a set bit of the sprite covers it, the coordinates being Vx and Vy
before VF is cleared; VF is 1 exactly when a covered cell was on, else 0; nothing off the display is drawn and nothing
wraps (R193; D19), a row outside memory draws nothing (R194; D20); nothing else but diagnostics changes. -/
def Obligations.DrawXorsTheCoveredCells : Prop :=
  ∀ (x y : Reg) (n : Nibble) (s : State), ∃ t, exec (.drw x y n) s = .next t ∧
    (∀ c < 64, ∀ r < 32, (t.cell (r * 64 + c) ≠ s.cell (r * 64 + c) ↔ s.SpriteCovers (s.readV x) (s.readV y) n c r)) ∧
    ((∃ c < 64, ∃ r < 32, s.SpriteCovers (s.readV x) (s.readV y) n c r ∧ s.cell (r * 64 + c) = true) →
      t.readV vf = 1) ∧
    ((¬ ∃ c < 64, ∃ r < 32, s.SpriteCovers (s.readV x) (s.readV y) n c r ∧ s.cell (r * 64 + c) = true) →
      t.readV vf = 0) ∧
    Frame { regs := [vf], display := true, diags := true } s t

/-- The diagnostics of DRW (R193, R194, R240; D19, D20): one MemOutOfRange per sprite row outside memory, in row order,
then one DisplayClipped exactly when a set bit fell outside 64 × 32. -/
def Obligations.DrawDiagnostics : Prop :=
  ∀ (x y : Reg) (n : Nibble) (s : State), ∃ t tail, exec (.drw x y n) s = .next t ∧
    t.diags = s.diags ++
      (((List.range n.toNat).map s.effAddr).filter (4096 ≤ ·)).map (.memOutOfRange · .read) ++ tail ∧
    ((∃ c r, s.SpriteCovers (s.readV x) (s.readV y) n c r ∧ (64 ≤ c ∨ 32 ≤ r)) →
      tail = [.displayClipped (s.readV x) (s.readV y) n]) ∧
    ((¬ ∃ c r, s.SpriteCovers (s.readV x) (s.readV y) n c r ∧ (64 ≤ c ∨ 32 ≤ r)) → tail = [])

/-- Height 0 (R196): no cell changes, no memory is read and VF is 0. -/
def Obligations.DrawOfHeightZeroOnlyClearsVf : Prop :=
  ∀ (x y : Reg) (s : State), ∃ t, exec (.drw x y 0) s = .next t ∧ t.readV vf = 0 ∧ Frame { regs := [vf] } s t

/-- Drawing the same sprite twice restores the display, when neither coordinate register is VF (R191, R195; the worked
example S8 of 95_test_vectors.md, for every sprite and place). -/
def Obligations.DrawingTwiceRestoresTheDisplay : Prop :=
  ∀ (x y : Reg) (n : Nibble) (s : State), x ≠ vf → y ≠ vf →
    ∃ t u, exec (.drw x y n) s = .next t ∧ exec (.drw x y n) t = .next u ∧ u.display = s.display

/-! ### Keys and timers -/

/-- SKP and SKNP (R210, R211): skip when key Vx is down, or up; with Vx ≥ 16 neither skips and one diagnostic is emitted
(R212; D21). -/
def Obligations.KeySkips : Prop :=
  ∀ (x : Reg) (s : State),
    (∀ k : Fin 16, (s.readV x).toNat = k.val →
      exec (.skp x) s = .next (if s.keys[k] = true then { s with pc := s.pc + 2 } else s) ∧
      exec (.sknp x) s = .next (if s.keys[k] = true then s else { s with pc := s.pc + 2 })) ∧
    (16 ≤ (s.readV x).toNat →
      exec (.skp x) s = .next { s with diags := s.diags ++ [.keyIndexOutOfRange (s.readV x)] } ∧
      exec (.sknp x) s = .next { s with diags := s.diags ++ [.keyIndexOutOfRange (s.readV x)] })

/-- LD Vx,K (R215): with keys down, Vx is the lowest of them; with none, pc goes back by 2 and nothing else changes, so
that the step leaves pc where it was. -/
def Obligations.KeyWait : Prop :=
  ∀ (x : Reg) (s : State),
    (∀ k : Fin 16, s.keys[k] = true → (∀ j : Fin 16, j < k → s.keys[j] = false) →
      ∃ t, exec (.ldvk x) s = .next t ∧ (t.readV x).toNat = k.val ∧ Frame { regs := [x] } s t) ∧
    ((∀ k : Fin 16, s.keys[k] = false) →
      exec (.ldvk x) s = .next { s with pc := s.pc - 2 } ∧
      (s.Runs (.ldvk x) → ∃ t, step s = .next t ∧ t.pc = s.pc ∧ t.v = s.v))

/-- LD Vx,DT, LD DT,Vx and LD ST,Vx (R214, R216, R217): what each copies, that nothing else changes in the execute phase,
and what the tick of the same step leaves. -/
def Obligations.TimerTransfers : Prop :=
  ∀ (x : Reg) (s : State),
    (∃ t, exec (.ldvdt x) s = .next t ∧ t.readV x = s.dt ∧ Frame { regs := [x] } s t) ∧
    (∃ t, exec (.lddtv x) s = .next t ∧ t.dt = s.readV x ∧ Frame { dt := true } s t) ∧
    (∃ t, exec (.ldstv x) s = .next t ∧ t.st = s.readV x ∧ Frame { st := true } s t) ∧
    (s.Runs (.ldvdt x) → ∃ t, step s = .next t ∧ t.readV x = s.dt ∧ t.dt.toNat = s.dt.toNat - 1) ∧
    (s.Runs (.lddtv x) → ∃ t, step s = .next t ∧ t.dt.toNat = (s.readV x).toNat - 1) ∧
    (s.Runs (.ldstv x) → ∃ t, step s = .next t ∧ t.st.toNat = (s.readV x).toNat - 1 ∧
      (t.beep = true ↔ (s.readV x).toNat = 1))

/-! ### Reset and the host's operations -/

/-- The state after initialize (R260, R44): every element of the state, memory byte by byte (the glyph bytes are D24, the
zeros of the rest of memory D23), and the parameter SUBN_UNDERFLOW at the spec's value (R9; D16). -/
def Obligations.ResetState : Prop :=
  (∀ r : Reg, State.reset.readV r = 0) ∧ State.reset.index = 0 ∧ State.reset.pc = 0x200 ∧ State.reset.sp = 0 ∧
  (∀ k : Fin 16, State.reset.stack[k] = 0) ∧ State.reset.dt = 0 ∧ State.reset.st = 0 ∧
  (∀ k : Fin 16, State.reset.keys[k] = false) ∧ (∀ k < 2048, State.reset.cell k = false) ∧ State.reset.halted = none ∧
  State.reset.subnUnderflow = .wrap ∧
  (∀ d < 80, State.reset.byteAt (0x50 + d) = some (glyphTable.getD d 0)) ∧
  (∀ a < 4096, a < 0x50 ∨ 0xA0 ≤ a → State.reset.byteAt a = some 0)

/-- initialize from any state, the halted ones too (R260, R261; D37), with the parameter GLYPH_TABLE as an argument (R9,
R33; D24): the 80 bytes stand at 0x050..0x09F, every other byte is 0, and everything else is as at reset; with the default
table it is `initMachine`. The position in the RND stream and SUBN_UNDERFLOW are no state of the block and stay
(notes/assumptions/1.md, 6.md). -/
def Obligations.InitializeWithAnyGlyphTable : Prop :=
  (∀ (g : Vector Byte 80) (s : State),
    (∀ d : Fin 80, (initMachineWith g s).byteAt (0x50 + d.val) = some g[d]) ∧
    (∀ a < 4096, a < 0x50 ∨ 0xA0 ≤ a → (initMachineWith g s).byteAt a = some 0) ∧
    Memory.wf (initMachineWith g s).mem ∧
    { initMachineWith g s with mem := [] } =
      { State.reset with rndIndex := s.rndIndex, subnUnderflow := s.subnUnderflow }) ∧
  (∀ (g : Vector Byte 80) (s : State), g.toList = glyphTable → initMachineWith g s = initMachine s)

/-- load of at most 3584 bytes (R262; D25): it answers ok, byte i stands at 0x200 + i, and no other byte and no other
state changes. -/
def Obligations.LoadPlacesTheProgram : Prop :=
  ∀ (bytes : List Byte) (s : State), Memory.wf s.mem → bytes.length ≤ 3584 → ∃ t, load bytes s = (.ok, t) ∧
    (∀ (i : Nat) (h : i < bytes.length), t.byteAt (0x200 + i) = some bytes[i]) ∧
    Frame { bytes := (List.range bytes.length).map (0x200 + ·) } s t

/-- load of more than 3584 bytes is rejected and changes nothing; a load of no byte succeeds and writes nothing (R263). -/
def Obligations.OversizedLoadIsRejected : Prop :=
  (∀ (bytes : List Byte) (s : State), 3584 < bytes.length → load bytes s = (.loadError, s)) ∧
  (∀ s : State, load [] s = (.ok, s))

/-- After initialize and a load, the first step fetches the first two loaded bytes (R265, R53). -/
def Obligations.FirstFetchReadsTheFirstLoadedBytes : Prop :=
  ∀ (hi lo : Byte) (rest : List Byte) (s : State), rest.length ≤ 3582 →
    ∃ t w, load (hi :: lo :: rest) (initMachine s) = (.ok, t) ∧ t.Fetches w ∧
      w.toNat = 256 * hi.toNat + lo.toNat

/-- The key state belongs to the host (R30, R41; D28): an event sets its own key and nothing else, initialize clears every
key (R261; D37), and no load (D25) and no step changes one. -/
def Obligations.KeysChangeOnlyByTheHost : Prop :=
  (∀ (k j : Fin 16) (down : Bool) (s : State), (setKey k down s).keys[j] = if j = k then down else s.keys[j]) ∧
  (∀ (k : Fin 16) (down : Bool) (s : State), { setKey k down s with keys := s.keys } = s) ∧
  (∀ (k : Fin 16) (s : State), (initMachine s).keys[k] = false) ∧
  (∀ (bytes : List Byte) (s : State), (load bytes s).2.keys = s.keys) ∧
  (∀ s t : State, step s = .next t → t.keys = s.keys)

/-! ### Invariants and rules of the whole machine -/

/-- The state after reset has the invariant of `State.Inv`. -/
def Obligations.ResetHasTheInvariant : Prop := State.reset.Inv

/-- Every step keeps the invariant: memory canonical, pc at most 0x10FE (R23), return addresses at most 0x1000 (R121), and
a halted state's cause in agreement with pc, SP and SUBN_UNDERFLOW (R236 to R239; D4 to D6, D16, D35; the bounds are the
spec's own inferences). -/
def Obligations.EveryStepKeepsTheInvariant : Prop :=
  ∀ s t : State, s.Inv → step s = .next t → t.Inv

/-- What the host does between steps keeps the invariant too, and initialize establishes it (R40, R260, R262). -/
def Obligations.HostOperationsKeepTheInvariant : Prop :=
  (∀ (bytes : List Byte) (s : State), s.Inv → (load bytes s).2.Inv) ∧
  (∀ (k : Fin 16) (down : Bool) (s : State), s.Inv → (setKey k down s).Inv) ∧
  (∀ s : State, (initMachine s).Inv)

/-- The halted state ends only by initialize (R36, R101, R242, R264; D5, D25). -/
def Obligations.OnlyInitializeLeavesTheHaltedState : Prop :=
  ∀ (s : State) (c : HaltCause), s.halted = some c →
    (∀ t, step s = .next t → t.halted = some c) ∧
    (∀ bytes, (load bytes s).2.halted = some c) ∧
    (∀ k down, (setKey k down s).halted = some c) ∧
    (initMachine s).halted = none

/-- Who writes what in the execute phase, for every element of the state: a register only where it is a destination, VF as a
flag, or one of V0..Vx of LD Vx,[I] (R20, R21); pc only by JP, CALL, RET, JP V0, the six skips and key-wait (R22); I only by
LD I, ADD I and LD F (R24; not by LD Vx,[I]: D18); SP and the slots only by CALL and RET (R26); DT only by LD DT and ST only by
LD ST (R28); no key (R30); the display only by CLS and DRW (R32); memory only by LD B and LD [I] (R58); halted only by the
three instructions that can raise a hard fault (R236; D4, D16). The same for the model's own fields: diagnostics only by
what accesses memory by I or tests a key, the RND position only by RND, the beep and SUBN_UNDERFLOW by nothing. -/
def Obligations.EachElementHasItsWriters : Prop :=
  ∀ (i : Instr) (s t : State), exec i s = .next t →
    (∀ r, t.readV r ≠ s.readV r → r ∈ writtenRegs i) ∧
    (t.pc ≠ s.pc →
      (∃ nnn, i = .jp nnn ∨ i = .call nnn ∨ i = .jpv0 nnn) ∨ i = .ret ∨ (∃ x kk, i = .sei x kk ∨ i = .snei x kk) ∨
      (∃ x y, i = .ser x y ∨ i = .sner x y) ∨ ∃ x, i = .skp x ∨ i = .sknp x ∨ i = .ldvk x) ∧
    (t.index ≠ s.index → (∃ nnn, i = .ldidx nnn) ∨ (∃ x, i = .addidx x) ∨ ∃ x, i = .ldf x) ∧
    (t.sp ≠ s.sp ∨ t.stack ≠ s.stack → i = .ret ∨ ∃ nnn, i = .call nnn) ∧
    (t.dt ≠ s.dt → ∃ x, i = .lddtv x) ∧
    (t.st ≠ s.st → ∃ x, i = .ldstv x) ∧
    t.keys = s.keys ∧
    (t.display ≠ s.display → i = .cls ∨ ∃ x y n, i = .drw x y n) ∧
    (t.mem ≠ s.mem → (∃ x, i = .ldb x) ∨ ∃ x, i = .stm x) ∧
    (t.halted ≠ s.halted →
      i = .ret ∨ (∃ nnn, i = .call nnn) ∨ (s.subnUnderflow = .fault ∧ ∃ x y, i = .subn x y)) ∧
    (t.diags ≠ s.diags → (∃ x y n, i = .drw x y n) ∨ ∃ x, i = .ldb x ∨ i = .stm x ∨ i = .ldm x ∨ i = .skp x ∨ i = .sknp x) ∧
    (t.rndIndex ≠ s.rndIndex → ∃ x kk, i = .rnd x kk) ∧
    t.beep = s.beep ∧ t.subnUnderflow = s.subnUnderflow
end

