-- ==== Sys2Proof/Laws/Encode.lean ====
section
/-! SUPPORT. The fields of a word and the words of the formats as numbers, so that encoding facts become arithmetic; and
that a word is made of its two bytes (spec 30_encoding.md R70 to R73). -/
namespace Sys2Proof

theorem toNat_append_add {m n : Nat} (a : BitVec m) (b : BitVec n) :
    (a ++ b).toNat = 2 ^ n * a.toNat + b.toNat := by
  rw [BitVec.toNat_append, ← Nat.shiftLeft_add_eq_or_of_lt b.isLt, Nat.shiftLeft_eq, Nat.mul_comm]

theorem regBits_toNat (x : Reg) : (regBits x).toNat = x.val := rfl

/-! ### The formats -/

theorem encodeA_toNat (f : Nibble) (nnn : Addr12) : (encodeA f nnn).toNat = 4096 * f.toNat + nnn.toNat :=
  toNat_append_add f nnn

theorem encodeXK_toNat (f : Nibble) (x : Reg) (kk : Byte) :
    (encodeXK f x kk).toNat = 4096 * f.toNat + 256 * x.val + kk.toNat := by
  have h : (encodeXK f x kk).toNat = 2 ^ 8 * (f ++ regBits x).toNat + kk.toNat := toNat_append_add _ _
  rw [h, toNat_append_add, regBits_toNat]
  omega

theorem encodeXYN_toNat (f : Nibble) (x y : Reg) (n : Nibble) :
    (encodeXYN f x y n).toNat = 4096 * f.toNat + 256 * x.val + 16 * y.val + n.toNat := by
  have h : (encodeXYN f x y n).toNat = 2 ^ 4 * (f ++ regBits x ++ regBits y).toNat + n.toNat := toNat_append_add _ _
  rw [h, toNat_append_add, toNat_append_add, regBits_toNat, regBits_toNat]
  omega

theorem wordOfBytes_toNat (hi lo : Byte) : (wordOfBytes hi lo).toNat = 256 * hi.toNat + lo.toNat :=
  toNat_append_add hi lo

/-! ### The fields -/

theorem fieldF_toNat (w : Word) : (fieldF w).toNat = w.toNat / 4096 := by
  have := w.isLt
  rw [fieldF, BitVec.extractLsb'_toNat, Nat.shiftRight_eq_div_pow]
  omega

theorem fieldN_toNat (w : Word) : (fieldN w).toNat = w.toNat % 16 := by
  rw [fieldN, BitVec.extractLsb'_toNat, Nat.shiftRight_eq_div_pow]
  omega

theorem fieldKK_toNat (w : Word) : (fieldKK w).toNat = w.toNat % 256 := by
  rw [fieldKK, BitVec.extractLsb'_toNat, Nat.shiftRight_eq_div_pow]
  omega

theorem fieldNNN_toNat (w : Word) : (fieldNNN w).toNat = w.toNat % 4096 := by
  rw [fieldNNN, BitVec.extractLsb'_toNat, Nat.shiftRight_eq_div_pow]
  omega

theorem fieldX_val (w : Word) : (fieldX w).val = w.toNat / 256 % 16 := by
  show (BitVec.extractLsb' 8 4 w).toNat = _
  rw [BitVec.extractLsb'_toNat, Nat.shiftRight_eq_div_pow]

theorem fieldY_val (w : Word) : (fieldY w).val = w.toNat / 16 % 16 := by
  show (BitVec.extractLsb' 4 4 w).toNat = _
  rw [BitVec.extractLsb'_toNat, Nat.shiftRight_eq_div_pow]

/-! ### The fields of the formats' words -/

theorem fieldF_encodeA (f : Nibble) (nnn : Addr12) : fieldF (encodeA f nnn) = f := by
  apply BitVec.eq_of_toNat_eq
  rw [fieldF_toNat, encodeA_toNat]
  have := nnn.isLt
  omega

theorem fieldNNN_encodeA (f : Nibble) (nnn : Addr12) : fieldNNN (encodeA f nnn) = nnn := by
  apply BitVec.eq_of_toNat_eq
  rw [fieldNNN_toNat, encodeA_toNat]
  have := nnn.isLt
  omega

theorem fieldF_encodeXK (f : Nibble) (x : Reg) (kk : Byte) : fieldF (encodeXK f x kk) = f := by
  apply BitVec.eq_of_toNat_eq
  rw [fieldF_toNat, encodeXK_toNat]
  have := kk.isLt
  have := x.isLt
  omega

theorem fieldX_encodeXK (f : Nibble) (x : Reg) (kk : Byte) : fieldX (encodeXK f x kk) = x := by
  apply Fin.ext
  rw [fieldX_val, encodeXK_toNat]
  have := kk.isLt
  have := x.isLt
  omega

theorem fieldKK_encodeXK (f : Nibble) (x : Reg) (kk : Byte) : fieldKK (encodeXK f x kk) = kk := by
  apply BitVec.eq_of_toNat_eq
  rw [fieldKK_toNat, encodeXK_toNat]
  have := kk.isLt
  omega

theorem fieldF_encodeXYN (f : Nibble) (x y : Reg) (n : Nibble) : fieldF (encodeXYN f x y n) = f := by
  apply BitVec.eq_of_toNat_eq
  rw [fieldF_toNat, encodeXYN_toNat]
  have := n.isLt
  have := x.isLt
  have := y.isLt
  omega

theorem fieldX_encodeXYN (f : Nibble) (x y : Reg) (n : Nibble) : fieldX (encodeXYN f x y n) = x := by
  apply Fin.ext
  rw [fieldX_val, encodeXYN_toNat]
  have := n.isLt
  have := x.isLt
  have := y.isLt
  omega

theorem fieldY_encodeXYN (f : Nibble) (x y : Reg) (n : Nibble) : fieldY (encodeXYN f x y n) = y := by
  apply Fin.ext
  rw [fieldY_val, encodeXYN_toNat]
  have := n.isLt
  have := y.isLt
  omega

theorem fieldN_encodeXYN (f : Nibble) (x y : Reg) (n : Nibble) : fieldN (encodeXYN f x y n) = n := by
  apply BitVec.eq_of_toNat_eq
  rw [fieldN_toNat, encodeXYN_toNat]
  have := n.isLt
  omega

/-- Every word is a word of format XYN made of its own fields. -/
theorem eq_encodeXYN (w : Word) : w = encodeXYN (fieldF w) (fieldX w) (fieldY w) (fieldN w) := by
  apply BitVec.eq_of_toNat_eq
  rw [encodeXYN_toNat, fieldF_toNat, fieldX_val, fieldY_val, fieldN_toNat]
  omega

/-- Every word is a word of format XK made of its own fields. -/
theorem eq_encodeXK (w : Word) : w = encodeXK (fieldF w) (fieldX w) (fieldKK w) := by
  apply BitVec.eq_of_toNat_eq
  rw [encodeXK_toNat, fieldF_toNat, fieldX_val, fieldKK_toNat]
  omega

/-! ### The bytes of a word -/

/-- A word is made of its high byte and its low byte. -/
theorem wordOfBytes_highByte_lowByte (w : Word) : wordOfBytes (highByte w) (lowByte w) = w := by
  apply BitVec.eq_of_toNat_eq
  have := w.isLt
  rw [wordOfBytes_toNat, highByte, lowByte, BitVec.extractLsb'_toNat, BitVec.extractLsb'_toNat,
    Nat.shiftRight_eq_div_pow, Nat.shiftRight_eq_div_pow]
  omega

end Sys2Proof
end

