-- ==== Sys2Proof/Laws/Memory.lean ====
section
/-! SUPPORT. The laws of memory: a read after a write, the canonical form kept by every operation, and equal memories
equal lists. -/
namespace Sys2Proof.Machine

/-! ### Reads after writes -/

/-- Outside the address written, `put` changes nothing, in any list. -/
theorem Memory.lookup_put_ne {a c : Nat} (h : c ≠ a) (b : Byte) (m : Memory) :
    Memory.lookup c (Memory.put a b m) = Memory.lookup c m := by
  induction m with
  | nil => by_cases hb : b = Memory.unlisted a <;> simp [Memory.put, Memory.lookup, hb, Ne.symm h]
  | cons cell m ih =>
    obtain ⟨a', b'⟩ := cell
    unfold Memory.put
    by_cases h1 : a < a'
    · by_cases hb : b = Memory.unlisted a <;> simp [Memory.lookup, h1, hb, Ne.symm h]
    · by_cases h2 : a = a'
      · subst h2
        by_cases hb : b = Memory.unlisted a <;> simp [Memory.lookup, hb, Ne.symm h]
      · simp only [h1, h2, if_false, Memory.lookup, ih]

/-- An address below every listed one is unlisted. -/
theorem Memory.lookup_of_forall_lt {a : Nat} {m : Memory} (h : ∀ c ∈ m, a < c.1) :
    Memory.lookup a m = Memory.unlisted a := by
  induction m with
  | nil => rfl
  | cons cell m ih =>
    obtain ⟨a', b'⟩ := cell
    have h1 : a < a' := h (a', b') (by simp)
    have h2 : a' ≠ a := by omega
    simp [Memory.lookup, h2, ih (fun c hc => h c (by simp [hc]))]

/-- A read after a write to the same address gives the byte written, in any list with rising addresses. -/
theorem Memory.lookup_put_self {m : Memory} (hm : m.Pairwise (fun c d => c.1 < d.1)) (a : Nat) (b : Byte) :
    Memory.lookup a (Memory.put a b m) = b := by
  induction m with
  | nil => by_cases hb : b = Memory.unlisted a <;> simp [Memory.put, Memory.lookup, hb]
  | cons cell m ih =>
    obtain ⟨a', b'⟩ := cell
    obtain ⟨hlt, hm'⟩ := List.pairwise_cons.1 hm
    unfold Memory.put
    by_cases h1 : a < a'
    · have hall : ∀ c ∈ (a', b') :: m, a < c.1 := by
        intro c hc
        rcases List.mem_cons.1 hc with rfl | hc
        · exact h1
        · exact Nat.lt_trans h1 (hlt c hc)
      by_cases hb : b = Memory.unlisted a
      · simp only [h1, hb, if_true, Memory.lookup_of_forall_lt hall]
      · simp [h1, hb, Memory.lookup]
    · by_cases h2 : a = a'
      · subst h2
        by_cases hb : b = Memory.unlisted a
        · simp only [Nat.lt_irrefl, hb, if_true, if_false, Memory.lookup_of_forall_lt hlt]
        · simp [hb, Memory.lookup]
      · simp [h1, h2, Ne.symm h2, Memory.lookup, ih hm']

/-! ### The canonical form -/

/-- `put` lists no address but those listed before and its own. -/
theorem Memory.mem_put {a : Nat} {b : Byte} {m : Memory} {c : Host.Cell} (h : c ∈ Memory.put a b m) :
    c ∈ m ∨ (c = (a, b) ∧ b ≠ Memory.unlisted a) := by
  induction m with
  | nil =>
    by_cases hb : b = Memory.unlisted a
    · simp [Memory.put, hb] at h
    · simp [Memory.put, hb] at h; simp [h, hb]
  | cons cell m ih =>
    obtain ⟨a', b'⟩ := cell
    unfold Memory.put at h
    split at h
    · split at h
      · exact .inl h
      · next hb => rcases List.mem_cons.1 h with rfl | h
                   · exact .inr ⟨rfl, hb⟩
                   · exact .inl h
    · split at h
      · split at h
        · exact .inl (List.mem_cons_of_mem _ h)
        · next hb => rcases List.mem_cons.1 h with rfl | h
                     · exact .inr ⟨rfl, hb⟩
                     · exact .inl (List.mem_cons_of_mem _ h)
      · rcases List.mem_cons.1 h with rfl | h
        · exact .inl (by simp)
        · exact (ih h).imp (List.mem_cons_of_mem _) id

/-- `put` keeps addresses strictly rising. -/
theorem Memory.pairwise_put {m : Memory} (hm : m.Pairwise (fun c d => c.1 < d.1)) (a : Nat) (b : Byte) :
    (Memory.put a b m).Pairwise (fun c d => c.1 < d.1) := by
  induction m with
  | nil => by_cases hb : b = Memory.unlisted a <;> simp [Memory.put, hb]
  | cons cell m ih =>
    obtain ⟨a', b'⟩ := cell
    obtain ⟨hlt, hm'⟩ := List.pairwise_cons.1 hm
    unfold Memory.put
    split
    · next h1 =>
      split
      · exact hm
      · refine List.pairwise_cons.2 ⟨fun c hc => ?_, hm⟩
        rcases List.mem_cons.1 hc with rfl | hc
        · exact h1
        · exact Nat.lt_trans h1 (hlt c hc)
    · next h1 =>
      split
      · next h2 =>
        subst h2
        split
        · exact hm'
        · exact List.pairwise_cons.2 ⟨hlt, hm'⟩
      · next h2 =>
        refine List.pairwise_cons.2 ⟨fun c hc => ?_, ih hm'⟩
        rcases Memory.mem_put hc with hc | ⟨rfl, -⟩
        · exact hlt c hc
        · show a' < a
          omega

/-- A checked write keeps the canonical form. -/
theorem Memory.wf_write {m : Memory} (hm : Memory.wf m) (a : Nat) (b : Byte) : Memory.wf (Memory.write a b m) := by
  unfold Memory.write
  split
  · next ha =>
    refine ⟨Memory.pairwise_put hm.1 a b, fun c hc => ?_⟩
    rcases Memory.mem_put hc with hc | ⟨rfl, hb⟩
    · exact hm.2 c hc
    · exact ⟨ha, hb⟩
  · exact hm

/-- Writing a run of bytes keeps the canonical form. -/
theorem Memory.wf_writeBytes {m : Memory} (hm : Memory.wf m) (a : Nat) (bs : List Byte) :
    Memory.wf (Memory.writeBytes a bs m) := by
  induction bs generalizing a m with
  | nil => exact hm
  | cons b bs ih => exact ih (Memory.wf_write hm a b) (a + 1)

theorem Memory.wf_nil : Memory.wf [] := ⟨List.Pairwise.nil, by simp⟩

/-! ### The checked accesses -/

theorem Memory.read_of_lt {m : Memory} {a : Nat} (h : a < 4096) : Memory.read m a = some (Memory.lookup a m) := by
  simp [Memory.read, h]

theorem Memory.read_of_ge {m : Memory} {a : Nat} (h : 4096 ≤ a) : Memory.read m a = none := by
  simp [Memory.read, Nat.not_lt.2 h]

theorem Memory.read_write_ne {a c : Nat} (h : c ≠ a) (b : Byte) (m : Memory) :
    Memory.read (Memory.write a b m) c = Memory.read m c := by
  unfold Memory.read Memory.write
  by_cases h1 : a < Config.memSize <;> simp [h1, Memory.lookup_put_ne h]

theorem Memory.read_write_self {m : Memory} (hm : Memory.wf m) {a : Nat} (ha : a < 4096) (b : Byte) :
    Memory.read (Memory.write a b m) a = some b := by
  simp [Memory.read, Memory.write, ha, Memory.lookup_put_self hm.1]

/-- Outside the run of addresses written, `writeBytes` changes nothing. -/
theorem Memory.read_writeBytes_ne {a c : Nat} {bs : List Byte} (h : c < a ∨ a + bs.length ≤ c) (m : Memory) :
    Memory.read (Memory.writeBytes a bs m) c = Memory.read m c := by
  induction bs generalizing a m with
  | nil => rfl
  | cons b bs ih =>
    simp only [List.length_cons] at h
    rw [Memory.writeBytes, ih (by omega), Memory.read_write_ne (by omega)]

/-- The i-th address of the run reads the i-th byte. -/
theorem Memory.read_writeBytes {a : Nat} {bs : List Byte} {m : Memory} (hm : Memory.wf m) (i : Nat) (hi : i < bs.length)
    (ha : a + i < 4096) : Memory.read (Memory.writeBytes a bs m) (a + i) = some bs[i] := by
  induction bs generalizing a m i with
  | nil => simp at hi
  | cons b bs ih =>
    cases i with
    | zero =>
      rw [Memory.writeBytes, Memory.read_writeBytes_ne (by omega)]
      exact Memory.read_write_self hm ha b
    | succ i =>
      have := ih (a := a + 1) (Memory.wf_write hm a b) i (by simpa using hi) (by omega)
      rw [show a + 1 + i = a + (i + 1) by omega] at this
      simpa [Memory.writeBytes] using this

/-! ### Equal memories are equal lists -/

/-- A canonical memory lists an address exactly when it reads there as something else than the unlisted value. -/
theorem Memory.lookup_of_mem {m : Memory} (hm : m.Pairwise (fun c d => c.1 < d.1)) {c : Host.Cell} (hc : c ∈ m) :
    Memory.lookup c.1 m = c.2 := by
  induction m with
  | nil => simp at hc
  | cons cell m ih =>
    obtain ⟨a', b'⟩ := cell
    obtain ⟨hlt, hm'⟩ := List.pairwise_cons.1 hm
    rcases List.mem_cons.1 hc with rfl | hc
    · simp [Memory.lookup]
    · have := hlt c hc
      have hne : a' ≠ c.1 := by simp only at this; omega
      simp [Memory.lookup, hne, ih hm' hc]

theorem Memory.mem_of_lookup {m : Memory} {a : Nat} (h : Memory.lookup a m ≠ Memory.unlisted a) :
    (a, Memory.lookup a m) ∈ m := by
  induction m with
  | nil => exact absurd rfl h
  | cons cell m ih =>
    obtain ⟨a', b'⟩ := cell
    by_cases h1 : a' = a
    · simp [Memory.lookup, h1]
    · simp only [Memory.lookup, h1, if_false] at h ⊢
      exact List.mem_cons_of_mem _ (ih h)

/-- The form is canonical: two well-formed memories that read alike everywhere are the same list. -/
theorem Memory.eq_of_read_eq {m m' : Memory} (hm : Memory.wf m) (hm' : Memory.wf m')
    (h : ∀ a, Memory.read m a = Memory.read m' a) : m = m' := by
  have hl : ∀ a, a < 4096 → Memory.lookup a m = Memory.lookup a m' := fun a ha => by
    simpa [Memory.read, ha] using h a
  have sub : ∀ {m m' : Memory}, Memory.wf m → Memory.wf m' →
      (∀ a, a < 4096 → Memory.lookup a m = Memory.lookup a m') → ∀ c ∈ m, c ∈ m' := by
    intro m m' hm _ hl c hc
    have h1 := Memory.lookup_of_mem hm.1 hc
    have h2 := hm.2 c hc
    have h3 := hl c.1 h2.1
    have := Memory.mem_of_lookup (m := m') (a := c.1) (by rw [← h3, h1]; exact h2.2)
    rwa [← h3, h1] at this
  have nodup : ∀ {m : Memory}, Memory.wf m → m.Nodup := fun hm =>
    hm.1.imp (fun hlt e => by simp [e] at hlt)
  have hp : m.Perm m' := (List.perm_ext_iff_of_nodup (nodup hm) (nodup hm')).2 fun c =>
    ⟨sub hm hm' hl c, sub hm' hm (fun a ha => (hl a ha).symm) c⟩
  exact hp.eq_of_pairwise (fun c d _ _ h1 h2 => by omega) hm.1 hm'.1

end Sys2Proof.Machine
end

