-- ==== Sys2Proof/Laws/State.lean ====
section
/-! SUPPORT. One lemma per field of State per update of State, each true by rfl, so that no later proof unfolds a record
update; then how a register and a byte of memory read through each update. -/
namespace Sys2Proof.Machine

variable (s : State)

/-! ### State.writeV -/

@[simp] theorem State.writeV_v (x : Reg) (b : Byte) : (s.writeV x b).v = s.v.set x b := rfl
@[simp] theorem State.writeV_index (x : Reg) (b : Byte) : (s.writeV x b).index = s.index := rfl
@[simp] theorem State.writeV_pc (x : Reg) (b : Byte) : (s.writeV x b).pc = s.pc := rfl
@[simp] theorem State.writeV_sp (x : Reg) (b : Byte) : (s.writeV x b).sp = s.sp := rfl
@[simp] theorem State.writeV_stack (x : Reg) (b : Byte) : (s.writeV x b).stack = s.stack := rfl
@[simp] theorem State.writeV_dt (x : Reg) (b : Byte) : (s.writeV x b).dt = s.dt := rfl
@[simp] theorem State.writeV_st (x : Reg) (b : Byte) : (s.writeV x b).st = s.st := rfl
@[simp] theorem State.writeV_keys (x : Reg) (b : Byte) : (s.writeV x b).keys = s.keys := rfl
@[simp] theorem State.writeV_display (x : Reg) (b : Byte) : (s.writeV x b).display = s.display := rfl
@[simp] theorem State.writeV_mem (x : Reg) (b : Byte) : (s.writeV x b).mem = s.mem := rfl
@[simp] theorem State.writeV_halted (x : Reg) (b : Byte) : (s.writeV x b).halted = s.halted := rfl
@[simp] theorem State.writeV_beep (x : Reg) (b : Byte) : (s.writeV x b).beep = s.beep := rfl
@[simp] theorem State.writeV_diags (x : Reg) (b : Byte) : (s.writeV x b).diags = s.diags := rfl
@[simp] theorem State.writeV_rndIndex (x : Reg) (b : Byte) : (s.writeV x b).rndIndex = s.rndIndex := rfl
@[simp] theorem State.writeV_subnUnderflow (x : Reg) (b : Byte) : (s.writeV x b).subnUnderflow = s.subnUnderflow := rfl
@[simp] theorem State.writeV_byteAt (x : Reg) (b : Byte) (a : Nat) : (s.writeV x b).byteAt a = s.byteAt a := rfl

/-! ### State.writeFlag -/

@[simp] theorem State.writeFlag_v (f : Byte) : (s.writeFlag f).v = s.v.set vf f := rfl
@[simp] theorem State.writeFlag_index (f : Byte) : (s.writeFlag f).index = s.index := rfl
@[simp] theorem State.writeFlag_pc (f : Byte) : (s.writeFlag f).pc = s.pc := rfl
@[simp] theorem State.writeFlag_sp (f : Byte) : (s.writeFlag f).sp = s.sp := rfl
@[simp] theorem State.writeFlag_stack (f : Byte) : (s.writeFlag f).stack = s.stack := rfl
@[simp] theorem State.writeFlag_dt (f : Byte) : (s.writeFlag f).dt = s.dt := rfl
@[simp] theorem State.writeFlag_st (f : Byte) : (s.writeFlag f).st = s.st := rfl
@[simp] theorem State.writeFlag_keys (f : Byte) : (s.writeFlag f).keys = s.keys := rfl
@[simp] theorem State.writeFlag_display (f : Byte) : (s.writeFlag f).display = s.display := rfl
@[simp] theorem State.writeFlag_mem (f : Byte) : (s.writeFlag f).mem = s.mem := rfl
@[simp] theorem State.writeFlag_halted (f : Byte) : (s.writeFlag f).halted = s.halted := rfl
@[simp] theorem State.writeFlag_beep (f : Byte) : (s.writeFlag f).beep = s.beep := rfl
@[simp] theorem State.writeFlag_diags (f : Byte) : (s.writeFlag f).diags = s.diags := rfl
@[simp] theorem State.writeFlag_rndIndex (f : Byte) : (s.writeFlag f).rndIndex = s.rndIndex := rfl
@[simp] theorem State.writeFlag_subnUnderflow (f : Byte) : (s.writeFlag f).subnUnderflow = s.subnUnderflow := rfl
@[simp] theorem State.writeFlag_byteAt (f : Byte) (a : Nat) : (s.writeFlag f).byteAt a = s.byteAt a := rfl

/-! ### State.emit -/

@[simp] theorem State.emit_v (d : Diag) : (s.emit d).v = s.v := rfl
@[simp] theorem State.emit_index (d : Diag) : (s.emit d).index = s.index := rfl
@[simp] theorem State.emit_pc (d : Diag) : (s.emit d).pc = s.pc := rfl
@[simp] theorem State.emit_sp (d : Diag) : (s.emit d).sp = s.sp := rfl
@[simp] theorem State.emit_stack (d : Diag) : (s.emit d).stack = s.stack := rfl
@[simp] theorem State.emit_dt (d : Diag) : (s.emit d).dt = s.dt := rfl
@[simp] theorem State.emit_st (d : Diag) : (s.emit d).st = s.st := rfl
@[simp] theorem State.emit_keys (d : Diag) : (s.emit d).keys = s.keys := rfl
@[simp] theorem State.emit_display (d : Diag) : (s.emit d).display = s.display := rfl
@[simp] theorem State.emit_mem (d : Diag) : (s.emit d).mem = s.mem := rfl
@[simp] theorem State.emit_halted (d : Diag) : (s.emit d).halted = s.halted := rfl
@[simp] theorem State.emit_beep (d : Diag) : (s.emit d).beep = s.beep := rfl
@[simp] theorem State.emit_diags (d : Diag) : (s.emit d).diags = s.diags ++ [d] := rfl
@[simp] theorem State.emit_rndIndex (d : Diag) : (s.emit d).rndIndex = s.rndIndex := rfl
@[simp] theorem State.emit_subnUnderflow (d : Diag) : (s.emit d).subnUnderflow = s.subnUnderflow := rfl
@[simp] theorem State.emit_readV (d : Diag) (r : Reg) : (s.emit d).readV r = s.readV r := rfl
@[simp] theorem State.emit_byteAt (d : Diag) (a : Nat) : (s.emit d).byteAt a = s.byteAt a := rfl

/-! ### State.clearOutputs -/

@[simp] theorem State.clearOutputs_v : (s.clearOutputs).v = s.v := rfl
@[simp] theorem State.clearOutputs_index : (s.clearOutputs).index = s.index := rfl
@[simp] theorem State.clearOutputs_pc : (s.clearOutputs).pc = s.pc := rfl
@[simp] theorem State.clearOutputs_sp : (s.clearOutputs).sp = s.sp := rfl
@[simp] theorem State.clearOutputs_stack : (s.clearOutputs).stack = s.stack := rfl
@[simp] theorem State.clearOutputs_dt : (s.clearOutputs).dt = s.dt := rfl
@[simp] theorem State.clearOutputs_st : (s.clearOutputs).st = s.st := rfl
@[simp] theorem State.clearOutputs_keys : (s.clearOutputs).keys = s.keys := rfl
@[simp] theorem State.clearOutputs_display : (s.clearOutputs).display = s.display := rfl
@[simp] theorem State.clearOutputs_mem : (s.clearOutputs).mem = s.mem := rfl
@[simp] theorem State.clearOutputs_halted : (s.clearOutputs).halted = s.halted := rfl
@[simp] theorem State.clearOutputs_beep : (s.clearOutputs).beep = false := rfl
@[simp] theorem State.clearOutputs_diags : (s.clearOutputs).diags = [] := rfl
@[simp] theorem State.clearOutputs_rndIndex : (s.clearOutputs).rndIndex = s.rndIndex := rfl
@[simp] theorem State.clearOutputs_subnUnderflow : (s.clearOutputs).subnUnderflow = s.subnUnderflow := rfl
@[simp] theorem State.clearOutputs_readV (r : Reg) : (s.clearOutputs).readV r = s.readV r := rfl
@[simp] theorem State.clearOutputs_byteAt (a : Nat) : (s.clearOutputs).byteAt a = s.byteAt a := rfl

/-! ### State.setPc -/

@[simp] theorem State.setPc_v (w : Word) : (s.setPc w).v = s.v := rfl
@[simp] theorem State.setPc_index (w : Word) : (s.setPc w).index = s.index := rfl
@[simp] theorem State.setPc_pc (w : Word) : (s.setPc w).pc = w := rfl
@[simp] theorem State.setPc_sp (w : Word) : (s.setPc w).sp = s.sp := rfl
@[simp] theorem State.setPc_stack (w : Word) : (s.setPc w).stack = s.stack := rfl
@[simp] theorem State.setPc_dt (w : Word) : (s.setPc w).dt = s.dt := rfl
@[simp] theorem State.setPc_st (w : Word) : (s.setPc w).st = s.st := rfl
@[simp] theorem State.setPc_keys (w : Word) : (s.setPc w).keys = s.keys := rfl
@[simp] theorem State.setPc_display (w : Word) : (s.setPc w).display = s.display := rfl
@[simp] theorem State.setPc_mem (w : Word) : (s.setPc w).mem = s.mem := rfl
@[simp] theorem State.setPc_halted (w : Word) : (s.setPc w).halted = s.halted := rfl
@[simp] theorem State.setPc_beep (w : Word) : (s.setPc w).beep = s.beep := rfl
@[simp] theorem State.setPc_diags (w : Word) : (s.setPc w).diags = s.diags := rfl
@[simp] theorem State.setPc_rndIndex (w : Word) : (s.setPc w).rndIndex = s.rndIndex := rfl
@[simp] theorem State.setPc_subnUnderflow (w : Word) : (s.setPc w).subnUnderflow = s.subnUnderflow := rfl
@[simp] theorem State.setPc_readV (w : Word) (r : Reg) : (s.setPc w).readV r = s.readV r := rfl
@[simp] theorem State.setPc_byteAt (w : Word) (a : Nat) : (s.setPc w).byteAt a = s.byteAt a := rfl

/-! ### State.advancePc -/

@[simp] theorem State.advancePc_v : (s.advancePc).v = s.v := rfl
@[simp] theorem State.advancePc_index : (s.advancePc).index = s.index := rfl
@[simp] theorem State.advancePc_pc : (s.advancePc).pc = s.pc + 2 := rfl
@[simp] theorem State.advancePc_sp : (s.advancePc).sp = s.sp := rfl
@[simp] theorem State.advancePc_stack : (s.advancePc).stack = s.stack := rfl
@[simp] theorem State.advancePc_dt : (s.advancePc).dt = s.dt := rfl
@[simp] theorem State.advancePc_st : (s.advancePc).st = s.st := rfl
@[simp] theorem State.advancePc_keys : (s.advancePc).keys = s.keys := rfl
@[simp] theorem State.advancePc_display : (s.advancePc).display = s.display := rfl
@[simp] theorem State.advancePc_mem : (s.advancePc).mem = s.mem := rfl
@[simp] theorem State.advancePc_halted : (s.advancePc).halted = s.halted := rfl
@[simp] theorem State.advancePc_beep : (s.advancePc).beep = s.beep := rfl
@[simp] theorem State.advancePc_diags : (s.advancePc).diags = s.diags := rfl
@[simp] theorem State.advancePc_rndIndex : (s.advancePc).rndIndex = s.rndIndex := rfl
@[simp] theorem State.advancePc_subnUnderflow : (s.advancePc).subnUnderflow = s.subnUnderflow := rfl
@[simp] theorem State.advancePc_readV (r : Reg) : (s.advancePc).readV r = s.readV r := rfl
@[simp] theorem State.advancePc_byteAt (a : Nat) : (s.advancePc).byteAt a = s.byteAt a := rfl

/-! ### State.rewindPc -/

@[simp] theorem State.rewindPc_v : (s.rewindPc).v = s.v := rfl
@[simp] theorem State.rewindPc_index : (s.rewindPc).index = s.index := rfl
@[simp] theorem State.rewindPc_pc : (s.rewindPc).pc = s.pc - 2 := rfl
@[simp] theorem State.rewindPc_sp : (s.rewindPc).sp = s.sp := rfl
@[simp] theorem State.rewindPc_stack : (s.rewindPc).stack = s.stack := rfl
@[simp] theorem State.rewindPc_dt : (s.rewindPc).dt = s.dt := rfl
@[simp] theorem State.rewindPc_st : (s.rewindPc).st = s.st := rfl
@[simp] theorem State.rewindPc_keys : (s.rewindPc).keys = s.keys := rfl
@[simp] theorem State.rewindPc_display : (s.rewindPc).display = s.display := rfl
@[simp] theorem State.rewindPc_mem : (s.rewindPc).mem = s.mem := rfl
@[simp] theorem State.rewindPc_halted : (s.rewindPc).halted = s.halted := rfl
@[simp] theorem State.rewindPc_beep : (s.rewindPc).beep = s.beep := rfl
@[simp] theorem State.rewindPc_diags : (s.rewindPc).diags = s.diags := rfl
@[simp] theorem State.rewindPc_rndIndex : (s.rewindPc).rndIndex = s.rndIndex := rfl
@[simp] theorem State.rewindPc_subnUnderflow : (s.rewindPc).subnUnderflow = s.subnUnderflow := rfl
@[simp] theorem State.rewindPc_readV (r : Reg) : (s.rewindPc).readV r = s.readV r := rfl
@[simp] theorem State.rewindPc_byteAt (a : Nat) : (s.rewindPc).byteAt a = s.byteAt a := rfl

/-! ### State.preStep -/

@[simp] theorem State.preStep_v : (s.preStep).v = s.v := rfl
@[simp] theorem State.preStep_index : (s.preStep).index = s.index := rfl
@[simp] theorem State.preStep_pc : (s.preStep).pc = s.pc + 2 := rfl
@[simp] theorem State.preStep_sp : (s.preStep).sp = s.sp := rfl
@[simp] theorem State.preStep_stack : (s.preStep).stack = s.stack := rfl
@[simp] theorem State.preStep_dt : (s.preStep).dt = s.dt := rfl
@[simp] theorem State.preStep_st : (s.preStep).st = s.st := rfl
@[simp] theorem State.preStep_keys : (s.preStep).keys = s.keys := rfl
@[simp] theorem State.preStep_display : (s.preStep).display = s.display := rfl
@[simp] theorem State.preStep_mem : (s.preStep).mem = s.mem := rfl
@[simp] theorem State.preStep_halted : (s.preStep).halted = s.halted := rfl
@[simp] theorem State.preStep_beep : (s.preStep).beep = false := rfl
@[simp] theorem State.preStep_diags : (s.preStep).diags = [] := rfl
@[simp] theorem State.preStep_rndIndex : (s.preStep).rndIndex = s.rndIndex := rfl
@[simp] theorem State.preStep_subnUnderflow : (s.preStep).subnUnderflow = s.subnUnderflow := rfl
@[simp] theorem State.preStep_readV (r : Reg) : (s.preStep).readV r = s.readV r := rfl
@[simp] theorem State.preStep_byteAt (a : Nat) : (s.preStep).byteAt a = s.byteAt a := rfl

/-! ### State.setIndex -/

@[simp] theorem State.setIndex_v (w : Word) : (s.setIndex w).v = s.v := rfl
@[simp] theorem State.setIndex_index (w : Word) : (s.setIndex w).index = w := rfl
@[simp] theorem State.setIndex_pc (w : Word) : (s.setIndex w).pc = s.pc := rfl
@[simp] theorem State.setIndex_sp (w : Word) : (s.setIndex w).sp = s.sp := rfl
@[simp] theorem State.setIndex_stack (w : Word) : (s.setIndex w).stack = s.stack := rfl
@[simp] theorem State.setIndex_dt (w : Word) : (s.setIndex w).dt = s.dt := rfl
@[simp] theorem State.setIndex_st (w : Word) : (s.setIndex w).st = s.st := rfl
@[simp] theorem State.setIndex_keys (w : Word) : (s.setIndex w).keys = s.keys := rfl
@[simp] theorem State.setIndex_display (w : Word) : (s.setIndex w).display = s.display := rfl
@[simp] theorem State.setIndex_mem (w : Word) : (s.setIndex w).mem = s.mem := rfl
@[simp] theorem State.setIndex_halted (w : Word) : (s.setIndex w).halted = s.halted := rfl
@[simp] theorem State.setIndex_beep (w : Word) : (s.setIndex w).beep = s.beep := rfl
@[simp] theorem State.setIndex_diags (w : Word) : (s.setIndex w).diags = s.diags := rfl
@[simp] theorem State.setIndex_rndIndex (w : Word) : (s.setIndex w).rndIndex = s.rndIndex := rfl
@[simp] theorem State.setIndex_subnUnderflow (w : Word) : (s.setIndex w).subnUnderflow = s.subnUnderflow := rfl
@[simp] theorem State.setIndex_readV (w : Word) (r : Reg) : (s.setIndex w).readV r = s.readV r := rfl
@[simp] theorem State.setIndex_byteAt (w : Word) (a : Nat) : (s.setIndex w).byteAt a = s.byteAt a := rfl

/-! ### State.nextRnd -/

@[simp] theorem State.nextRnd_v : (s.nextRnd).v = s.v := rfl
@[simp] theorem State.nextRnd_index : (s.nextRnd).index = s.index := rfl
@[simp] theorem State.nextRnd_pc : (s.nextRnd).pc = s.pc := rfl
@[simp] theorem State.nextRnd_sp : (s.nextRnd).sp = s.sp := rfl
@[simp] theorem State.nextRnd_stack : (s.nextRnd).stack = s.stack := rfl
@[simp] theorem State.nextRnd_dt : (s.nextRnd).dt = s.dt := rfl
@[simp] theorem State.nextRnd_st : (s.nextRnd).st = s.st := rfl
@[simp] theorem State.nextRnd_keys : (s.nextRnd).keys = s.keys := rfl
@[simp] theorem State.nextRnd_display : (s.nextRnd).display = s.display := rfl
@[simp] theorem State.nextRnd_mem : (s.nextRnd).mem = s.mem := rfl
@[simp] theorem State.nextRnd_halted : (s.nextRnd).halted = s.halted := rfl
@[simp] theorem State.nextRnd_beep : (s.nextRnd).beep = s.beep := rfl
@[simp] theorem State.nextRnd_diags : (s.nextRnd).diags = s.diags := rfl
@[simp] theorem State.nextRnd_rndIndex : (s.nextRnd).rndIndex = s.rndIndex + 1 := rfl
@[simp] theorem State.nextRnd_subnUnderflow : (s.nextRnd).subnUnderflow = s.subnUnderflow := rfl
@[simp] theorem State.nextRnd_readV (r : Reg) : (s.nextRnd).readV r = s.readV r := rfl
@[simp] theorem State.nextRnd_byteAt (a : Nat) : (s.nextRnd).byteAt a = s.byteAt a := rfl

/-! ### raiseFault -/

@[simp] theorem raiseFault_v (c : HaltCause) : (raiseFault c s).v = s.v := rfl
@[simp] theorem raiseFault_index (c : HaltCause) : (raiseFault c s).index = s.index := rfl
@[simp] theorem raiseFault_pc (c : HaltCause) : (raiseFault c s).pc = s.pc := rfl
@[simp] theorem raiseFault_sp (c : HaltCause) : (raiseFault c s).sp = s.sp := rfl
@[simp] theorem raiseFault_stack (c : HaltCause) : (raiseFault c s).stack = s.stack := rfl
@[simp] theorem raiseFault_dt (c : HaltCause) : (raiseFault c s).dt = s.dt := rfl
@[simp] theorem raiseFault_st (c : HaltCause) : (raiseFault c s).st = s.st := rfl
@[simp] theorem raiseFault_keys (c : HaltCause) : (raiseFault c s).keys = s.keys := rfl
@[simp] theorem raiseFault_display (c : HaltCause) : (raiseFault c s).display = s.display := rfl
@[simp] theorem raiseFault_mem (c : HaltCause) : (raiseFault c s).mem = s.mem := rfl
@[simp] theorem raiseFault_halted (c : HaltCause) : (raiseFault c s).halted = some c := rfl
@[simp] theorem raiseFault_beep (c : HaltCause) : (raiseFault c s).beep = s.beep := rfl
@[simp] theorem raiseFault_diags (c : HaltCause) : (raiseFault c s).diags = s.diags := rfl
@[simp] theorem raiseFault_rndIndex (c : HaltCause) : (raiseFault c s).rndIndex = s.rndIndex := rfl
@[simp] theorem raiseFault_subnUnderflow (c : HaltCause) : (raiseFault c s).subnUnderflow = s.subnUnderflow := rfl
@[simp] theorem raiseFault_readV (c : HaltCause) (r : Reg) : (raiseFault c s).readV r = s.readV r := rfl
@[simp] theorem raiseFault_byteAt (c : HaltCause) (a : Nat) : (raiseFault c s).byteAt a = s.byteAt a := rfl

/-! ### abortStep -/

@[simp] theorem abortStep_v (c : HaltCause) : (abortStep c s).v = s.v := rfl
@[simp] theorem abortStep_index (c : HaltCause) : (abortStep c s).index = s.index := rfl
@[simp] theorem abortStep_pc (c : HaltCause) : (abortStep c s).pc = s.pc := rfl
@[simp] theorem abortStep_sp (c : HaltCause) : (abortStep c s).sp = s.sp := rfl
@[simp] theorem abortStep_stack (c : HaltCause) : (abortStep c s).stack = s.stack := rfl
@[simp] theorem abortStep_dt (c : HaltCause) : (abortStep c s).dt = s.dt := rfl
@[simp] theorem abortStep_st (c : HaltCause) : (abortStep c s).st = s.st := rfl
@[simp] theorem abortStep_keys (c : HaltCause) : (abortStep c s).keys = s.keys := rfl
@[simp] theorem abortStep_display (c : HaltCause) : (abortStep c s).display = s.display := rfl
@[simp] theorem abortStep_mem (c : HaltCause) : (abortStep c s).mem = s.mem := rfl
@[simp] theorem abortStep_halted (c : HaltCause) : (abortStep c s).halted = some c := rfl
@[simp] theorem abortStep_beep (c : HaltCause) : (abortStep c s).beep = false := rfl
@[simp] theorem abortStep_diags (c : HaltCause) : (abortStep c s).diags = [] := rfl
@[simp] theorem abortStep_rndIndex (c : HaltCause) : (abortStep c s).rndIndex = s.rndIndex := rfl
@[simp] theorem abortStep_subnUnderflow (c : HaltCause) : (abortStep c s).subnUnderflow = s.subnUnderflow := rfl
@[simp] theorem abortStep_readV (c : HaltCause) (r : Reg) : (abortStep c s).readV r = s.readV r := rfl
@[simp] theorem abortStep_byteAt (c : HaltCause) (a : Nat) : (abortStep c s).byteAt a = s.byteAt a := rfl

/-! ### timerTick -/

@[simp] theorem timerTick_v : (timerTick s).v = s.v := rfl
@[simp] theorem timerTick_index : (timerTick s).index = s.index := rfl
@[simp] theorem timerTick_pc : (timerTick s).pc = s.pc := rfl
@[simp] theorem timerTick_sp : (timerTick s).sp = s.sp := rfl
@[simp] theorem timerTick_stack : (timerTick s).stack = s.stack := rfl
@[simp] theorem timerTick_dt : (timerTick s).dt = tickByte s.dt := rfl
@[simp] theorem timerTick_st : (timerTick s).st = tickByte s.st := rfl
@[simp] theorem timerTick_keys : (timerTick s).keys = s.keys := rfl
@[simp] theorem timerTick_display : (timerTick s).display = s.display := rfl
@[simp] theorem timerTick_mem : (timerTick s).mem = s.mem := rfl
@[simp] theorem timerTick_halted : (timerTick s).halted = s.halted := rfl
@[simp] theorem timerTick_beep : (timerTick s).beep = (s.st == 1) := rfl
@[simp] theorem timerTick_diags : (timerTick s).diags = s.diags := rfl
@[simp] theorem timerTick_rndIndex : (timerTick s).rndIndex = s.rndIndex := rfl
@[simp] theorem timerTick_subnUnderflow : (timerTick s).subnUnderflow = s.subnUnderflow := rfl
@[simp] theorem timerTick_readV (r : Reg) : (timerTick s).readV r = s.readV r := rfl
@[simp] theorem timerTick_byteAt (a : Nat) : (timerTick s).byteAt a = s.byteAt a := rfl

/-! ### setKey -/

@[simp] theorem setKey_v (k : Fin 16) (down : Bool) : (setKey k down s).v = s.v := rfl
@[simp] theorem setKey_index (k : Fin 16) (down : Bool) : (setKey k down s).index = s.index := rfl
@[simp] theorem setKey_pc (k : Fin 16) (down : Bool) : (setKey k down s).pc = s.pc := rfl
@[simp] theorem setKey_sp (k : Fin 16) (down : Bool) : (setKey k down s).sp = s.sp := rfl
@[simp] theorem setKey_stack (k : Fin 16) (down : Bool) : (setKey k down s).stack = s.stack := rfl
@[simp] theorem setKey_dt (k : Fin 16) (down : Bool) : (setKey k down s).dt = s.dt := rfl
@[simp] theorem setKey_st (k : Fin 16) (down : Bool) : (setKey k down s).st = s.st := rfl
@[simp] theorem setKey_keys (k : Fin 16) (down : Bool) : (setKey k down s).keys = s.keys.set k down := rfl
@[simp] theorem setKey_display (k : Fin 16) (down : Bool) : (setKey k down s).display = s.display := rfl
@[simp] theorem setKey_mem (k : Fin 16) (down : Bool) : (setKey k down s).mem = s.mem := rfl
@[simp] theorem setKey_halted (k : Fin 16) (down : Bool) : (setKey k down s).halted = s.halted := rfl
@[simp] theorem setKey_beep (k : Fin 16) (down : Bool) : (setKey k down s).beep = s.beep := rfl
@[simp] theorem setKey_diags (k : Fin 16) (down : Bool) : (setKey k down s).diags = s.diags := rfl
@[simp] theorem setKey_rndIndex (k : Fin 16) (down : Bool) : (setKey k down s).rndIndex = s.rndIndex := rfl
@[simp] theorem setKey_subnUnderflow (k : Fin 16) (down : Bool) : (setKey k down s).subnUnderflow = s.subnUnderflow := rfl
@[simp] theorem setKey_readV (k : Fin 16) (down : Bool) (r : Reg) : (setKey k down s).readV r = s.readV r := rfl
@[simp] theorem setKey_byteAt (k : Fin 16) (down : Bool) (a : Nat) : (setKey k down s).byteAt a = s.byteAt a := rfl

/-! ### Registers -/

/-- A register reads back what was last written to it, and a write leaves every other register alone (R20). -/
theorem State.writeV_readV (x : Reg) (b : Byte) (r : Reg) :
    (s.writeV x b).readV r = if x = r then b else s.readV r := by
  unfold State.readV State.writeV
  by_cases h : x = r
  · subst h; simp
  · have h' : x.val ≠ r.val := fun e => h (Fin.ext e)
    simp [h, h']

@[simp] theorem State.writeV_readV_self (x : Reg) (b : Byte) : (s.writeV x b).readV x = b := by
  simp [State.writeV_readV]

theorem State.writeV_readV_ne (x : Reg) (b : Byte) (r : Reg) (h : r ≠ x) : (s.writeV x b).readV r = s.readV r := by
  simp [State.writeV_readV, Ne.symm h]

theorem State.writeFlag_readV (f : Byte) (r : Reg) : (s.writeFlag f).readV r = if vf = r then f else s.readV r :=
  s.writeV_readV vf f r

/-! ### Skips and the start of the execute phase -/

@[simp] theorem State.skipIf_true : s.skipIf true = s.setPc (s.pc + 2) := rfl

@[simp] theorem State.skipIf_false : s.skipIf false = s := rfl

theorem State.preStep_eq : s.preStep = { s with beep := false, diags := [], pc := s.pc + 2 } := rfl

theorem initMachine_eq :
    initMachine s = { State.reset with rndIndex := s.rndIndex, subnUnderflow := s.subnUnderflow } := rfl

end Sys2Proof.Machine
end

