-- ==== Sys2Proof/Laws/Ops.lean ====
section
/-! SUPPORT. For each shared operation one lemma that says everything it can do; later proofs cite it and do not unfold
the operation. -/
namespace Sys2Proof.Machine

/-! ### Memory accesses (spec 20_memory.md R54 to R56) -/

theorem State.byteAt_of_lt (s : State) {a : Nat} (h : a < 4096) : s.byteAt a = some (Memory.lookup a s.mem) :=
  Memory.read_of_lt h

theorem State.byteAt_of_ge (s : State) {a : Nat} (h : 4096 ≤ a) : s.byteAt a = none := Memory.read_of_ge h

/-- A checked read answers the byte, and outside memory adds one diagnostic. -/
theorem memRead_eq (a : Nat) (s : State) :
    memRead a s = (s.byteAt a, { s with diags := s.diags ++ if a < 4096 then [] else [.memOutOfRange a .read] }) := by
  unfold memRead
  by_cases h : a < 4096
  · simp [s.byteAt_of_lt h, h]
  · simp [s.byteAt_of_ge (Nat.not_lt.1 h), h, State.emit]

/-- A checked write changes memory only, and outside memory adds one diagnostic instead. -/
theorem memWrite_eq (a : Nat) (b : Byte) (s : State) :
    memWrite a b s = { s with
      mem := Memory.write a b s.mem
      diags := s.diags ++ if a < 4096 then [] else [.memOutOfRange a .write] } := by
  unfold memWrite
  by_cases h : a < 4096
  · simp [h]
  · simp [h, State.emit, Memory.write]

/-- The fetch answers the big-endian word exactly when both bytes are in memory. -/
theorem State.fetch_eq (s : State) :
    s.fetch = if s.pc.toNat ≤ 0xFFE then
      some (wordOfBytes (Memory.lookup s.pc.toNat s.mem) (Memory.lookup (s.pc.toNat + 1) s.mem)) else none := by
  unfold State.fetch
  by_cases h : s.pc.toNat ≤ 0xFFE
  · rw [s.byteAt_of_lt (by omega), s.byteAt_of_lt (by omega)]
    simp [h]
  · rw [s.byteAt_of_ge (a := s.pc.toNat + 1) (by omega)]
    simp only [h, if_false]
    split <;> simp_all

theorem State.fetch_eq_none_iff (s : State) : s.fetch = none ↔ 0xFFF ≤ s.pc.toNat := by
  rw [State.fetch_eq]
  split
  · simp; omega
  · simp; omega

/-- The fetch looks at pc and memory only. -/
theorem State.fetch_congr {s t : State} (hpc : t.pc = s.pc) (hmem : t.mem = s.mem) : t.fetch = s.fetch := by
  rw [State.fetch_eq, State.fetch_eq, hpc, hmem]

/-! ### The registers V0..Vx (43_index_memory.md R174, R175) -/

theorem mem_regsUpTo (x r : Reg) : r ∈ regsUpTo x ↔ r ≤ x := by revert x r; decide

theorem nodup_regsUpTo (x : Reg) : (regsUpTo x).Nodup := by revert x; decide

theorem regsUpTo_map_val (x : Reg) : (regsUpTo x).map Fin.val = List.range (x.val + 1) := by revert x; decide

/-- The diagnostics of byte accesses at the given addresses, in order. -/
def outOfRange (access : Access) (addrs : List Nat) : List Diag :=
  (addrs.filter (4096 ≤ ·)).map (.memOutOfRange · access)

theorem outOfRange_cons (access : Access) (a : Nat) (as : List Nat) :
    outOfRange access (a :: as) = (if a < 4096 then [] else [.memOutOfRange a access]) ++ outOfRange access as := by
  unfold outOfRange
  by_cases h : a < 4096
  · simp [h, Nat.not_le.2 h]
  · simp [h, Nat.not_lt.1 h]

/-- Storing a list of registers writes memory and diagnostics, nothing else. -/
theorem foldl_storeReg_eq (rs : List Reg) (s : State) :
    rs.foldl storeReg s = { s with
      mem := rs.foldl (fun m r => Memory.write (s.effAddr r.val) (s.readV r) m) s.mem
      diags := s.diags ++ outOfRange .write (rs.map fun r => s.effAddr r.val) } := by
  induction rs generalizing s with
  | nil => simp [outOfRange]
  | cons r rs ih =>
    rw [List.foldl_cons, ih, storeReg, memWrite_eq]
    simp [outOfRange_cons, State.effAddr, State.readV]
    rfl

/-- Loading a list of registers writes registers and diagnostics, nothing else. -/
theorem foldl_loadReg_eq (rs : List Reg) (s : State) :
    rs.foldl loadReg s = { s with
      v := rs.foldl (fun (v : Vector Byte 16) (r : Reg) => v.set r ((s.byteAt (s.effAddr r.val)).getD v[r])) s.v
      diags := s.diags ++ outOfRange .read (rs.map fun r => s.effAddr r.val) } := by
  induction rs generalizing s with
  | nil => simp [outOfRange]
  | cons r rs ih =>
    have step : loadReg s r = { s with
        v := s.v.set r ((s.byteAt (s.effAddr r.val)).getD s.v[r])
        diags := s.diags ++ if s.effAddr r.val < 4096 then [] else [.memOutOfRange (s.effAddr r.val) .read] } := by
      unfold loadReg
      rw [memRead_eq]
      cases h : s.byteAt (s.effAddr r.val) <;> simp [State.writeV]
    rw [List.foldl_cons, ih, step]
    simp [outOfRange_cons, State.effAddr, State.byteAt]
    rfl

/-- Writing one byte per register of a list without repeats, at I + r for register r: the canonical form stays, each
address in memory holds its byte, and every other address is as before. -/
theorem foldl_write_spec {rs : List Reg} (hn : rs.Nodup) (s : State) (g : Reg → Byte) {m : Memory} (hw : Memory.wf m) :
    let m' := rs.foldl (fun m r => Memory.write (s.effAddr r.val) (g r) m) m
    Memory.wf m' ∧
    (∀ r ∈ rs, s.effAddr r.val < 4096 → Memory.read m' (s.effAddr r.val) = some (g r)) ∧
    ∀ a, (∀ r ∈ rs, s.effAddr r.val ≠ a) → Memory.read m' a = Memory.read m a := by
  induction rs generalizing m with
  | nil => exact ⟨hw, by simp, by simp⟩
  | cons r rs ih =>
    obtain ⟨hnot, hn'⟩ := List.nodup_cons.1 hn
    obtain ⟨wf, hit, miss⟩ := ih hn' (Memory.wf_write hw (s.effAddr r.val) (g r))
    refine ⟨wf, fun q hq hlt => ?_, fun a ha => ?_⟩
    · rcases List.mem_cons.1 hq with rfl | hq
      · rw [List.foldl_cons, miss _ (fun r' hr' e => hnot ?_), Memory.read_write_self hw hlt]
        have : r' = q := Fin.ext (by simpa [State.effAddr] using e)
        exact this ▸ hr'
      · exact hit q hq hlt
    · rw [List.foldl_cons, miss a (fun q hq => ha q (by simp [hq])), Memory.read_write_ne (ha r (by simp)).symm]

/-- Setting each register of a list without repeats from its own old value. -/
theorem foldl_set_spec {rs : List Reg} (hn : rs.Nodup) (g : Reg → Byte → Byte) (v : Vector Byte 16) (r : Reg) :
    (rs.foldl (fun (v : Vector Byte 16) (r : Reg) => v.set r (g r v[r])) v)[r] = if r ∈ rs then g r v[r] else v[r] := by
  induction rs generalizing v with
  | nil => simp
  | cons q rs ih =>
    obtain ⟨hnot, hn'⟩ := List.nodup_cons.1 hn
    rw [List.foldl_cons, ih hn']
    by_cases e : r = q
    · subst e; simp [hnot]
    · have : q.val ≠ r.val := fun h => e (Fin.ext h.symm)
      simp [e, Vector.getElem_set_ne _ _ this]

/-- LD B writes memory and diagnostics, nothing else (43_index_memory.md R173). -/
theorem storeBcd_eq (b : Byte) (s : State) :
    storeBcd b s = { s with
      mem := Memory.write (s.effAddr 2) (bcdOnes b)
        (Memory.write (s.effAddr 1) (bcdTens b) (Memory.write (s.effAddr 0) (bcdHundreds b) s.mem))
      diags := s.diags ++ outOfRange .write [s.effAddr 0, s.effAddr 1, s.effAddr 2] } := by
  simp [storeBcd, memWrite_eq, outOfRange_cons, State.effAddr]
  rfl

/-! ### The stack (41_flow.md R121, R123) -/

/-- A call pushes pc and jumps, or raises StackOverflow when the stack is full. -/
theorem callTo_cases (w : Word) (s : State) :
    (∃ h : s.sp.val < 16, callTo w s =
      { s with stack := s.stack.set s.sp.val s.pc h, sp := ⟨s.sp.val + 1, by omega⟩, pc := w }) ∨
    (s.sp.val = 16 ∧ callTo w s = { s with halted := some .stackOverflow }) := by
  by_cases h : s.sp.val < 16
  · exact .inl ⟨h, by simp [callTo, h]⟩
  · exact .inr ⟨by omega, by simp [callTo, h, raiseFault]⟩

/-- A return pops pc, or raises StackUnderflow when the stack is empty. -/
theorem returnFromCall_cases (s : State) :
    (∃ h : 0 < s.sp.val, returnFromCall s =
      { s with sp := ⟨s.sp.val - 1, by omega⟩, pc := s.stack[s.sp.val - 1] }) ∨
    (s.sp.val = 0 ∧ returnFromCall s = { s with halted := some .stackUnderflow }) := by
  by_cases h : 0 < s.sp.val
  · exact .inl ⟨h, by simp [returnFromCall, h]⟩
  · exact .inr ⟨by omega, by simp [returnFromCall, h, raiseFault]⟩

/-! ### Flags (42_alu.md R141) -/

/-- Flag first, result second: VF, then Vx from the registers as they are after the flag's write. -/
theorem flagThenResult_eq (flag result : Byte → Byte → Byte) (x y : Reg) (s : State) :
    flagThenResult flag result x y s =
      (s.writeV vf (flag (s.readV x) (s.readV y))).writeV x
        (result (if vf = x then flag (s.readV x) (s.readV y) else s.readV x)
          (if vf = y then flag (s.readV x) (s.readV y) else s.readV y)) := by
  simp only [flagThenResult, State.writeFlag, State.writeV_readV]

/-- Under `wrap`, SUBN is a subtraction modulo 256 in the common shape. -/
theorem subnWith_wrap (x y : Reg) (s : State) :
    subnWith .wrap x y s = flagThenResult subnFlag (fun a b => b - a) x y s := by
  simp [subnWith, flagThenResult]

/-- SUBN under either policy: the common shape, unless the policy is `fault` and the difference is below 0; then the fault
is raised with the flag written. -/
theorem subnWith_cases (policy : Config.SubnUnderflow) (x y : Reg) (s : State) :
    let s' := s.writeFlag (subnFlag (s.readV x) (s.readV y))
    ((policy = .wrap ∨ (s'.readV x).toNat ≤ (s'.readV y).toNat) ∧
      subnWith policy x y s = flagThenResult subnFlag (fun a b => b - a) x y s) ∨
    (policy = .fault ∧ (s'.readV y).toNat < (s'.readV x).toNat ∧
      subnWith policy x y s = { s' with halted := some .subnUnderflow }) := by
  intro s'
  cases policy with
  | wrap => exact .inl ⟨.inl rfl, subnWith_wrap x y s⟩
  | fault =>
    by_cases h : s'.readV x ≤ s'.readV y
    · exact .inl ⟨.inr h, if_pos h⟩
    · exact .inr ⟨rfl, Nat.lt_of_not_le h, if_neg h⟩

/-! ### The display (44_display.md R191) -/

/-- Flipping a cell of the display changes that cell and no other. -/
theorem cellAt_flipCell (d : Display) (c r c' r' : Nat) :
    cellAt (flipCell d c r) c' r' =
      (cellAt d c' r' != decide (c' = c ∧ r' = r ∧ c < 64 ∧ r < 32)) := by
  unfold flipCell
  by_cases h : c < 64 ∧ r < 32
  · simp only [h, and_self, dif_pos, and_true]
    unfold cellAt
    by_cases hr : r' < 32
    · simp only [hr, dif_pos]
      by_cases e : r' = r
      · subst e
        by_cases hc : c' < 64
        · simp only [Vector.getElem_set_self, BitVec.getMsbD_xor, and_true]
          congr 1
          simp only [BitVec.getMsbD, hc, decide_true, Bool.true_and, BitVec.getLsbD_twoPow]
          by_cases e2 : c' = c
          · subst e2; simp; omega
          · simp [e2]; omega
        · have : c' ≠ c := by omega
          simp [BitVec.getMsbD, hc, this]
      · simp [e, Vector.getElem_set_ne _ _ (Ne.symm e)]
    · have : r' ≠ r := by omega
      simp [hr, this]
  · simp [h]

/-! ### Keys and timers (45_keys_timers.md R210 to R215, 60_exceptions.md R243) -/

theorem State.keyDown_eq (s : State) (k : Fin 16) : s.keyDown k.val = s.keys[k] := by simp [State.keyDown]

/-- A key skip either emits its diagnostic or looks at one key. -/
theorem skipOnKey_cases (wanted : Bool) (k : Byte) (s : State) :
    (16 ≤ k.toNat ∧ skipOnKey wanted k s = { s with diags := s.diags ++ [.keyIndexOutOfRange k] }) ∨
    (k.toNat < 16 ∧ skipOnKey wanted k s = s.skipIf (s.keyDown k.toNat == wanted)) := by
  unfold skipOnKey
  by_cases h : k.toNat ≥ 16
  · exact .inl ⟨h, by rw [if_pos h]; rfl⟩
  · exact .inr ⟨by omega, by rw [if_neg h]⟩

/-- A skip is an advance of pc by 2 or nothing. -/
theorem State.skipIf_cases (c : Bool) (s : State) :
    (c = true ∧ s.skipIf c = { s with pc := s.pc + 2 }) ∨ (c = false ∧ s.skipIf c = s) := by
  cases c
  · exact .inr ⟨rfl, rfl⟩
  · exact .inl ⟨rfl, rfl⟩

/-- A key-wait writes Vx or goes back by 2. -/
theorem keyWait_cases (x : Reg) (s : State) :
    (∃ k, s.firstKeyDown = some k ∧ keyWait x s = s.writeV x (BitVec.ofNat 8 k)) ∨
    (s.firstKeyDown = none ∧ keyWait x s = { s with pc := s.pc - 2 }) := by
  unfold keyWait
  cases h : s.firstKeyDown with
  | some k => exact .inl ⟨k, rfl, rfl⟩
  | none => exact .inr ⟨rfl, rfl⟩

theorem tickByte_toNat (t : Byte) : (tickByte t).toNat = t.toNat - 1 := by
  unfold tickByte
  split
  · next h => simp [h]
  · next h =>
    have h0 : t.toNat ≠ 0 := fun e => h (BitVec.eq_of_toNat_eq (by simpa using e))
    have := t.isLt
    rw [BitVec.toNat_sub]
    simp
    omega

/-! ### The step (40_cycle.md R100, R101, R107, R110) -/

/-- What a step can do, from a state that runs or is halted: nothing, a fetch fault, an unrecognized word, or an
instruction. -/
theorem cycle_cases (s : State) :
    (∃ c, s.halted = some c ∧ cycle s = .next s.clearOutputs) ∨
    (s.halted = none ∧ 0xFFF ≤ s.pc.toNat ∧ cycle s = .next (abortStep .fetchOutOfRange s)) ∨
    (s.halted = none ∧ ∃ w e, s.fetch = some w ∧ decodeWord w = .error e ∧
      cycle s = .next (finishStep s (s.preStep.emit (.unrecognized w)))) ∨
    (s.halted = none ∧ ∃ w i, s.fetch = some w ∧ decodeWord w = .ok i ∧
      cycle s = finishResult s (exec i s.preStep)) := by
  unfold cycle
  cases hh : s.halted with
  | some c => exact .inl ⟨c, rfl, rfl⟩
  | none =>
    cases hf : s.fetch with
    | none => exact .inr (.inl ⟨rfl, s.fetch_eq_none_iff.1 hf, rfl⟩)
    | some w =>
      cases hd : decodeWord w with
      | error e => exact .inr (.inr (.inl ⟨rfl, w, e, rfl, hd, by simp [executeWord, hd, finishResult]⟩))
      | ok i => exact .inr (.inr (.inr ⟨rfl, w, i, rfl, hd, by simp [executeWord, hd]⟩))

/-- The end of a step: abort when the execute phase raised a fault, else one tick. -/
theorem finishStep_of_running {s t : State} (h : t.halted = none) : finishStep s t = timerTick t := by
  simp [finishStep, h]

theorem finishStep_of_halted {s t : State} {c : HaltCause} (h : t.halted = some c) : finishStep s t = abortStep c s := by
  simp [finishStep, h]

end Sys2Proof.Machine
end

