-- ==== Sys2Proof/Laws/Draw.lean ====
section
/-! SUPPORT. What a draw does, said once: it is the drawing of a list of distinct positions, and each position is flipped,
collides or is clipped on its own (spec 44_display.md R191 to R195). -/
namespace Sys2Proof.Machine

/-- The positions of the set bits of a sprite byte at start column `c0` of row `r`, leftmost first. -/
def bytePositions (b : Byte) (c0 r : Nat) : List (Nat × Nat) :=
  ((List.range 8).filter b.getMsbD).map fun k => (c0 + k, r)

/-- The positions of row `i` of the sprite at I: none when its byte is outside memory. -/
def rowPositions (s : State) (c0 r0 i : Nat) : List (Nat × Nat) :=
  match s.byteAt (s.effAddr i) with
  | some b => bytePositions b c0 (r0 + i)
  | none => []

/-- Draw a set bit at each position of a list, in order. -/
def drawBits (ps : List (Nat × Nat)) (d : Drawing) : Drawing := ps.foldl (fun d p => drawBit p.1 p.2 d) d

/-- Is a position on the display? -/
abbrev onDisplay (p : Nat × Nat) : Prop := p.1 < 64 ∧ p.2 < 32

theorem drawBits_append (ps qs : List (Nat × Nat)) (d : Drawing) :
    drawBits (ps ++ qs) d = drawBits qs (drawBits ps d) := List.foldl_append

theorem drawByte_eq (b : Byte) (c0 r : Nat) (d : Drawing) : drawByte b c0 r d = drawBits (bytePositions b c0 r) d := by
  unfold drawByte drawBits bytePositions
  rw [List.foldl_map, List.foldl_filter]

/-- Drawing rows adds a diagnostic for each row outside memory, in order, and draws the positions of the others. -/
theorem foldl_drawRow_eq (c0 r0 : Nat) (rows : List Nat) (s : State) (d : Drawing) :
    rows.foldl (drawRow c0 r0) (s, d) =
      ({ s with diags := s.diags ++ outOfRange .read (rows.map s.effAddr) },
       drawBits (rows.flatMap (rowPositions s c0 r0)) d) := by
  induction rows generalizing s d with
  | nil => simp [outOfRange, drawBits]
  | cons i rows ih =>
    have step : drawRow c0 r0 (s, d) i =
        ({ s with diags := s.diags ++ if s.effAddr i < 4096 then [] else [.memOutOfRange (s.effAddr i) .read] },
         drawBits (rowPositions s c0 r0 i) d) := by
      unfold drawRow rowPositions
      rw [memRead_eq]
      cases h : s.byteAt (s.effAddr i) <;> simp [drawByte_eq, drawBits]
    rw [List.foldl_cons, step, ih, List.map_cons, outOfRange_cons, List.flatMap_cons, drawBits_append]
    simp [State.effAddr]
    constructor <;> rfl

theorem drawRows_eq (c0 r0 n : Nat) (s : State) :
    drawRows c0 r0 n s =
      ({ s with diags := s.diags ++ outOfRange .read ((List.range n).map s.effAddr) },
       drawBits ((List.range n).flatMap (rowPositions s c0 r0)) ⟨s.display, false, false⟩) :=
  foldl_drawRow_eq c0 r0 (List.range n) s ⟨s.display, false, false⟩

/-! ### Which positions -/

theorem mem_rowPositions (s : State) (c0 r0 i : Nat) (p : Nat × Nat) :
    p ∈ rowPositions s c0 r0 i ↔
      ∃ k b, k < 8 ∧ s.byteAt (s.effAddr i) = some b ∧ b.getMsbD k = true ∧ p = (c0 + k, r0 + i) := by
  unfold rowPositions
  cases h : s.byteAt (s.effAddr i) with
  | none => simp
  | some b => simp [bytePositions, and_assoc, eq_comm (a := p)]

/-- The positions drawn are those the sprite covers. -/
theorem mem_spritePositions (s : State) (vx vy : Byte) (n : Nibble) (c r : Nat) :
    (c, r) ∈ (List.range n.toNat).flatMap (rowPositions s (vx.toNat % 64) (vy.toNat % 32)) ↔
      s.SpriteCovers vx vy n c r := by
  simp only [List.mem_flatMap, List.mem_range, mem_rowPositions, State.SpriteCovers, Prod.mk.injEq]
  constructor
  · rintro ⟨i, hi, k, b, h⟩; exact ⟨i, k, b, hi, h⟩
  · rintro ⟨i, k, b, hi, h⟩; exact ⟨i, hi, k, b, h⟩

theorem nodup_rowPositions (s : State) (c0 r0 i : Nat) : (rowPositions s c0 r0 i).Nodup := by
  unfold rowPositions
  split
  · exact (List.nodup_range.filter _).map (fun a b h => by simp at h; omega)
  · exact List.nodup_nil

/-- The positions of one draw are distinct (R195). -/
theorem nodup_spritePositions (s : State) (c0 r0 n : Nat) :
    ((List.range n).flatMap (rowPositions s c0 r0)).Nodup := by
  refine List.nodup_flatMap.2 ⟨fun i _ => nodup_rowPositions s c0 r0 i, ?_⟩
  refine List.nodup_range.imp fun {i j} hij p hi hj => ?_
  obtain ⟨_, _, -, -, -, rfl⟩ := (mem_rowPositions ..).1 hi
  obtain ⟨_, _, -, -, -, h⟩ := (mem_rowPositions ..).1 hj
  simp at h
  omega

/-! ### What drawing distinct positions does -/

/-- A cell is flipped exactly when it is one of the positions drawn. -/
theorem cellAt_drawBits {ps : List (Nat × Nat)} (hp : ps.Nodup) (d : Drawing) {c r : Nat} (hcr : onDisplay (c, r)) :
    cellAt (drawBits ps d).display c r = (cellAt d.display c r != decide ((c, r) ∈ ps)) := by
  induction ps generalizing d with
  | nil => simp [drawBits]
  | cons p ps ih =>
    obtain ⟨hnot, hp'⟩ := List.nodup_cons.1 hp
    obtain ⟨pc, pr⟩ := p
    have hd : cellAt (drawBit pc pr d).display c r = (cellAt d.display c r != decide ((c, r) = (pc, pr))) := by
      unfold drawBit
      split
      · next h =>
        simp only [cellAt_flipCell, Prod.mk.injEq]
        congr 2
        exact propext ⟨fun e => ⟨e.1, e.2.1⟩, fun e => ⟨e.1, e.2, h.1, h.2⟩⟩
      · next h =>
        have : ¬ (c, r) = (pc, pr) := by
          rintro e; simp only [Prod.mk.injEq] at e; exact h ⟨e.1 ▸ hcr.1, e.2 ▸ hcr.2⟩
        simp [this]
    show cellAt (drawBits ps (drawBit pc pr d)).display c r = _
    rw [ih hp', hd]
    by_cases e : (c, r) = (pc, pr)
    · rw [← e] at hnot
      simp [e, e ▸ hnot]
    · simp [e]

/-- A collision is a position drawn on a cell that was lit before the draw. -/
theorem collision_drawBits {ps : List (Nat × Nat)} (hp : ps.Nodup) (d : Drawing) :
    (drawBits ps d).collision = true ↔
      d.collision = true ∨ ∃ p ∈ ps, onDisplay p ∧ cellAt d.display p.1 p.2 = true := by
  induction ps generalizing d with
  | nil => simp [drawBits]
  | cons p ps ih =>
    obtain ⟨hnot, hp'⟩ := List.nodup_cons.1 hp
    show (drawBits ps (drawBit p.1 p.2 d)).collision = true ↔ _
    rw [ih hp']
    have hsame : ∀ q ∈ ps, onDisplay q →
        cellAt (drawBit p.1 p.2 d).display q.1 q.2 = cellAt d.display q.1 q.2 := by
      intro q hq hon
      have hne : q ≠ p := fun e => hnot (e ▸ hq)
      have := cellAt_drawBits (ps := [p]) (by simp) d (c := q.1) (r := q.2) hon
      simpa [drawBits, hne] using this
    have hcol : (drawBit p.1 p.2 d).collision = true ↔
        d.collision = true ∨ (onDisplay p ∧ cellAt d.display p.1 p.2 = true) := by
      unfold drawBit
      split
      · next h => simp [onDisplay, h.1, h.2]
      · next h => simp only [onDisplay]; tauto
    rw [hcol]
    constructor
    · rintro ((h | h) | ⟨q, hq, hon, hc⟩)
      · exact .inl h
      · exact .inr ⟨p, by simp, h⟩
      · exact .inr ⟨q, by simp [hq], hon, hsame q hq hon ▸ hc⟩
    · rintro (h | ⟨q, hq, hon, hc⟩)
      · exact .inl (.inl h)
      · rcases List.mem_cons.1 hq with rfl | hq
        · exact .inl (.inr ⟨hon, hc⟩)
        · exact .inr ⟨q, hq, hon, by rw [hsame q hq hon]; exact hc⟩

/-- Something is clipped exactly when a position drawn is off the display. -/
theorem clipped_drawBits (ps : List (Nat × Nat)) (d : Drawing) :
    (drawBits ps d).clipped = true ↔ d.clipped = true ∨ ∃ p ∈ ps, ¬ onDisplay p := by
  induction ps generalizing d with
  | nil => simp [drawBits]
  | cons p ps ih =>
    show (drawBits ps (drawBit p.1 p.2 d)).clipped = true ↔ _
    rw [ih]
    have h1 : (drawBit p.1 p.2 d).clipped = true ↔ d.clipped = true ∨ ¬ onDisplay p := by
      unfold drawBit
      split
      · next h => simp [onDisplay, h]
      · next h => simp [onDisplay, h]
    rw [h1, List.exists_mem_cons_iff]
    exact or_assoc

/-! ### The whole draw -/

/-- DRW changes VF, the display and the diagnostics, and this is what they become. -/
theorem drawSprite_eq (vx vy : Byte) (n : Nibble) (s : State) :
    drawSprite vx vy n s =
      let d := drawBits ((List.range n.toNat).flatMap (rowPositions s (vx.toNat % 64) (vy.toNat % 32)))
        ⟨s.display, false, false⟩
      { s with
        v := s.v.set vf (collisionFlag d.collision)
        display := d.display
        diags := s.diags ++ outOfRange .read ((List.range n.toNat).map s.effAddr) ++
          if d.clipped then [.displayClipped vx vy n] else [] } := by
  have hrow : rowPositions (s.writeFlag 0) = rowPositions s := rfl
  have heff : (s.writeFlag 0).effAddr = s.effAddr := rfl
  unfold drawSprite
  simp only [drawRows_eq, hrow, heff, State.writeFlag_display, State.writeFlag_diags]
  split <;> simp [*, State.writeFlag, State.writeV, State.emit]

end Sys2Proof.Machine
end

