-- ==== Sys2Proof/Laws/PerInstr.lean ====
section
/-! SUPPORT. Statements about every instruction as syntax, one lemma per constructor. TableRow: the row an instruction
stands for is a row of the opcode map of spec 30_encoding.md R81 and selects the instruction's word. -/
namespace Sys2Proof

theorem nibble_and_ones (f : Nibble) : f &&& 15#4 = f := by revert f; decide

theorem byte_and_ones (b : Byte) : b &&& 255#8 = b := by
  have := BitVec.and_allOnes (x := b)
  simpa using this

/-- Masking a word of format A with 0xF000 leaves the family. -/
theorem encodeA_and_family (f : Nibble) (nnn : Addr12) : encodeA f nnn &&& 0xF000 = f ++ 0#12 := by
  show (f ++ nnn) &&& (0xF#4 ++ 0#12) = _
  rw [BitVec.and_append]
  simp [nibble_and_ones]

/-- Masking a word of format XK with 0xF000 leaves the family. -/
theorem encodeXK_and_family (f : Nibble) (x : Reg) (kk : Byte) : encodeXK f x kk &&& 0xF000 = f ++ 0#4 ++ 0#8 := by
  show (f ++ regBits x ++ kk) &&& (0xF#4 ++ 0#4 ++ 0#8) = _
  rw [BitVec.and_append, BitVec.and_append]
  simp [nibble_and_ones]

/-- Masking a word of format XS with 0xF0FF leaves the family and the sub-code. -/
theorem encodeXK_and_subcode (f : Nibble) (x : Reg) (kk : Byte) : encodeXK f x kk &&& 0xF0FF = f ++ 0#4 ++ kk := by
  show (f ++ regBits x ++ kk) &&& (0xF#4 ++ 0#4 ++ 0xFF#8) = _
  rw [BitVec.and_append, BitVec.and_append]
  simp [nibble_and_ones, byte_and_ones]

/-- Masking a word of format XYN with 0xF000 leaves the family. -/
theorem encodeXYN_and_family (f : Nibble) (x y : Reg) (n : Nibble) :
    encodeXYN f x y n &&& 0xF000 = f ++ 0#4 ++ 0#4 ++ 0#4 := by
  show ((f ++ regBits x ++ regBits y ++ n) &&& (0xF#4 ++ 0#4 ++ 0#4 ++ 0#4) : BitVec (4 + 4 + 4 + 4)) = _
  rw [BitVec.and_append, BitVec.and_append, BitVec.and_append]
  simp [nibble_and_ones]

/-- Masking a word of format XYN with 0xF00F leaves the family and the low nibble. -/
theorem encodeXYN_and_subcode (f : Nibble) (x y : Reg) (n : Nibble) :
    encodeXYN f x y n &&& 0xF00F = f ++ 0#4 ++ 0#4 ++ n := by
  show ((f ++ regBits x ++ regBits y ++ n) &&& (0xF#4 ++ 0#4 ++ 0#4 ++ 0xF#4) : BitVec (4 + 4 + 4 + 4)) = _
  rw [BitVec.and_append, BitVec.and_append, BitVec.and_append]
  simp [nibble_and_ones]

namespace Laws.TableRow

/-- The row an instruction stands for is in the opcode map and selects its word (R81). -/
def Statement (i : Instr) : Prop := rowOf i ∈ opcodeTable ∧ (rowOf i).selects (encode i) = true

/-- Format A. -/
theorem of_A {i : Instr} (f : Nibble) (nnn : Addr12) (he : encode i = encodeA f nnn) (hm : (rowOf i).mask = 0xF000)
    (hv : (rowOf i).value = f ++ 0#12) (hr : rowOf i ∈ opcodeTable) : Statement i :=
  ⟨hr, by rw [OpcodeRow.selects, he, hm, hv, encodeA_and_family]; simp⟩

/-- Format XK. -/
theorem of_XK {i : Instr} (f : Nibble) (x : Reg) (kk : Byte) (he : encode i = encodeXK f x kk)
    (hm : (rowOf i).mask = 0xF000) (hv : (rowOf i).value = f ++ 0#4 ++ 0#8) (hr : rowOf i ∈ opcodeTable) : Statement i :=
  ⟨hr, by rw [OpcodeRow.selects, he, hm, hv, encodeXK_and_family]; simp⟩

/-- Format XS. -/
theorem of_XS {i : Instr} (f : Nibble) (x : Reg) (kk : Byte) (he : encode i = encodeXK f x kk)
    (hm : (rowOf i).mask = 0xF0FF) (hv : (rowOf i).value = f ++ 0#4 ++ kk) (hr : rowOf i ∈ opcodeTable) : Statement i :=
  ⟨hr, by rw [OpcodeRow.selects, he, hm, hv, encodeXK_and_subcode]; simp⟩

/-- Formats XY and XYN of a family without sub-code. -/
theorem of_XY {i : Instr} (f : Nibble) (x y : Reg) (n : Nibble) (he : encode i = encodeXYN f x y n)
    (hm : (rowOf i).mask = 0xF000) (hv : (rowOf i).value = f ++ 0#4 ++ 0#4 ++ 0#4) (hr : rowOf i ∈ opcodeTable) :
    Statement i :=
  ⟨hr, by rw [OpcodeRow.selects, he, hm, hv, encodeXYN_and_family]; simp⟩

/-- Format XYN of family 8. -/
theorem of_XYN {i : Instr} (f : Nibble) (x y : Reg) (n : Nibble) (he : encode i = encodeXYN f x y n)
    (hm : (rowOf i).mask = 0xF00F) (hv : (rowOf i).value = f ++ 0#4 ++ 0#4 ++ n) (hr : rowOf i ∈ opcodeTable) :
    Statement i :=
  ⟨hr, by rw [OpcodeRow.selects, he, hm, hv, encodeXYN_and_subcode]; simp⟩

theorem cls : Statement .cls := ⟨by decide, by decide⟩
theorem ret : Statement .ret := ⟨by decide, by decide⟩
theorem jp (nnn : Addr12) : Statement (.jp nnn) := of_A 0x1 nnn rfl rfl rfl (by simp [rowOf, opcodeTable, opcodeRowsLow])
theorem call (nnn : Addr12) : Statement (.call nnn) := of_A 0x2 nnn rfl rfl rfl (by simp [rowOf, opcodeTable, opcodeRowsLow])
theorem sei (x : Reg) (kk : Byte) : Statement (.sei x kk) := of_XK 0x3 x kk rfl rfl rfl (by simp [rowOf, opcodeTable, opcodeRowsLow])
theorem snei (x : Reg) (kk : Byte) : Statement (.snei x kk) := of_XK 0x4 x kk rfl rfl rfl (by simp [rowOf, opcodeTable, opcodeRowsLow])
theorem ser (x y : Reg) : Statement (.ser x y) := of_XY 0x5 x y 0 rfl rfl rfl (by simp [rowOf, opcodeTable, opcodeRowsLow])
theorem ldi (x : Reg) (kk : Byte) : Statement (.ldi x kk) := of_XK 0x6 x kk rfl rfl rfl (by simp [rowOf, opcodeTable, opcodeRowsLow])
theorem addi (x : Reg) (kk : Byte) : Statement (.addi x kk) := of_XK 0x7 x kk rfl rfl rfl (by simp [rowOf, opcodeTable, opcodeRowsLow])
theorem ldr (x y : Reg) : Statement (.ldr x y) := of_XYN 0x8 x y 0x0 rfl rfl rfl (by simp [rowOf, opcodeTable, opcodeRowsArith])
theorem or (x y : Reg) : Statement (.or x y) := of_XYN 0x8 x y 0x1 rfl rfl rfl (by simp [rowOf, opcodeTable, opcodeRowsArith])
theorem and (x y : Reg) : Statement (.and x y) := of_XYN 0x8 x y 0x2 rfl rfl rfl (by simp [rowOf, opcodeTable, opcodeRowsArith])
theorem xor (x y : Reg) : Statement (.xor x y) := of_XYN 0x8 x y 0x3 rfl rfl rfl (by simp [rowOf, opcodeTable, opcodeRowsArith])
theorem add (x y : Reg) : Statement (.add x y) := of_XYN 0x8 x y 0x4 rfl rfl rfl (by simp [rowOf, opcodeTable, opcodeRowsArith])
theorem sub (x y : Reg) : Statement (.sub x y) := of_XYN 0x8 x y 0x5 rfl rfl rfl (by simp [rowOf, opcodeTable, opcodeRowsArith])
theorem shr (x y : Reg) : Statement (.shr x y) := of_XYN 0x8 x y 0x6 rfl rfl rfl (by simp [rowOf, opcodeTable, opcodeRowsArith])
theorem subn (x y : Reg) : Statement (.subn x y) := of_XYN 0x8 x y 0x7 rfl rfl rfl (by simp [rowOf, opcodeTable, opcodeRowsArith])
theorem shl (x y : Reg) : Statement (.shl x y) := of_XYN 0x8 x y 0xE rfl rfl rfl (by simp [rowOf, opcodeTable, opcodeRowsArith])
theorem sner (x y : Reg) : Statement (.sner x y) := of_XY 0x9 x y 0 rfl rfl rfl (by simp [rowOf, opcodeTable, opcodeRowsHigh])
theorem ldidx (nnn : Addr12) : Statement (.ldidx nnn) := of_A 0xA nnn rfl rfl rfl (by simp [rowOf, opcodeTable, opcodeRowsHigh])
theorem jpv0 (nnn : Addr12) : Statement (.jpv0 nnn) := of_A 0xB nnn rfl rfl rfl (by simp [rowOf, opcodeTable, opcodeRowsHigh])
theorem rnd (x : Reg) (kk : Byte) : Statement (.rnd x kk) := of_XK 0xC x kk rfl rfl rfl (by simp [rowOf, opcodeTable, opcodeRowsHigh])
theorem drw (x y : Reg) (n : Nibble) : Statement (.drw x y n) := of_XY 0xD x y n rfl rfl rfl (by simp [rowOf, opcodeTable, opcodeRowsHigh])
theorem skp (x : Reg) : Statement (.skp x) := of_XS 0xE x 0x9E rfl rfl rfl (by simp [rowOf, opcodeTable, opcodeRowsHigh])
theorem sknp (x : Reg) : Statement (.sknp x) := of_XS 0xE x 0xA1 rfl rfl rfl (by simp [rowOf, opcodeTable, opcodeRowsHigh])
theorem ldvdt (x : Reg) : Statement (.ldvdt x) := of_XS 0xF x 0x07 rfl rfl rfl (by simp [rowOf, opcodeTable, opcodeRowsMisc])
theorem ldvk (x : Reg) : Statement (.ldvk x) := of_XS 0xF x 0x0A rfl rfl rfl (by simp [rowOf, opcodeTable, opcodeRowsMisc])
theorem lddtv (x : Reg) : Statement (.lddtv x) := of_XS 0xF x 0x15 rfl rfl rfl (by simp [rowOf, opcodeTable, opcodeRowsMisc])
theorem ldstv (x : Reg) : Statement (.ldstv x) := of_XS 0xF x 0x18 rfl rfl rfl (by simp [rowOf, opcodeTable, opcodeRowsMisc])
theorem addidx (x : Reg) : Statement (.addidx x) := of_XS 0xF x 0x1E rfl rfl rfl (by simp [rowOf, opcodeTable, opcodeRowsMisc])
theorem ldf (x : Reg) : Statement (.ldf x) := of_XS 0xF x 0x29 rfl rfl rfl (by simp [rowOf, opcodeTable, opcodeRowsMisc])
theorem ldb (x : Reg) : Statement (.ldb x) := of_XS 0xF x 0x33 rfl rfl rfl (by simp [rowOf, opcodeTable, opcodeRowsMisc])
theorem stm (x : Reg) : Statement (.stm x) := of_XS 0xF x 0x55 rfl rfl rfl (by simp [rowOf, opcodeTable, opcodeRowsMisc])
theorem ldm (x : Reg) : Statement (.ldm x) := of_XS 0xF x 0x65 rfl rfl rfl (by simp [rowOf, opcodeTable, opcodeRowsMisc])

end Laws.TableRow

end Sys2Proof
end

