-- ==== Sys2Proof/Tests/Slice0.lean ====
section
/-! SUPPORT. The model's own tests. Every expected value is taken from the spec: the encodings of 30_encoding.md R73 to
R82, the worked examples and vectors of 95_test_vectors.md (named S, Y, F, L, M, G, T, Z as there), and the examples of the
instruction rules. -/
namespace Sys2Proof.Tests

open Sys2Proof.Machine

/-! ### Helpers -/

/-- The next state an outcome gives. -/
def nextOf : Result → Option State
  | .next t => some t
  | .fault _ => none
  | .refused _ => none

/-- One step of the word `w` (as the opcode table numbers it) from `s`. -/
def run (s : State) (w : Nat) : Option State := nextOf (step (s.withFetchWord 16 w))

/-- The state after reset with some registers set. -/
def withRegs (l : List (Reg × Byte)) : State := l.foldl (fun s p => s.writeV p.1 p.2) State.reset

/-- A state with some bytes of memory set. -/
def withBytes (s : State) (l : List (Nat × Byte)) : State :=
  { s with mem := l.foldl (fun m p => Memory.write p.1 p.2 m) s.mem }

/-- A state with some keys down. -/
def withKeys (s : State) (l : List (Fin 16)) : State := l.foldl (fun s k => setKey k true s) s

/-! ### WellFormed: an ill-formed term for each check, refused -/

theorem test_wellFormedWord_refuses_family0 : wellFormedWord 0x0123 = false := by decide
theorem test_wellFormedWord_refuses_family8 : wellFormedWord 0x8008 = false := by decide
theorem test_wellFormedWord_refuses_familyE : wellFormedWord 0xE10E = false := by decide
theorem test_wellFormedWord_refuses_familyF : wellFormedWord 0xF130 = false := by decide
theorem test_wellFormedWord_accepts : wellFormedWord 0x8AB6 = true := by decide
theorem test_wellFormedProgram_refuses : wellFormedProgram (List.replicate 3585 0) = false :=
  decide_eq_false (by rw [List.length_replicate]; decide)
theorem test_wellFormedProgram_accepts : wellFormedProgram (List.replicate 3584 0) = true :=
  decide_eq_true (by rw [List.length_replicate])

/-! ### Decoding: a word of every constructor written out from R73 and R81, 4 bits a digit -/

theorem test_decode_family0 :
    decodeWord 0b0000_0000_1110_0000 = .ok .cls ∧ decodeWord 0b0000_0000_1110_1110 = .ok .ret ∧
    decodeWord 0x0120 = .ok .cls ∧ decodeWord 0x00FE = .ok .ret ∧
    decodeWord 0x0123 = .error (.unrecognized 0x0123) := by decide

theorem test_decode_address :
    decodeWord 0b0001_1010_0011_0101 = .ok (.jp 0xA35) ∧ decodeWord 0b0010_0011_0000_0001 = .ok (.call 0x301) ∧
    decodeWord 0b1010_0010_1111_0100 = .ok (.ldidx 0x2F4) ∧ decodeWord 0b1011_0001_0010_0011 = .ok (.jpv0 0x123) := by
  decide

theorem test_decode_immediate :
    decodeWord 0b0011_0011_0010_1010 = .ok (.sei 3 0x2A) ∧ decodeWord 0b0100_1100_1010_0001 = .ok (.snei 12 0xA1) ∧
    decodeWord 0b0110_1010_0100_0010 = .ok (.ldi 10 0x42) ∧ decodeWord 0b0111_0001_0010_0000 = .ok (.addi 1 0x20) ∧
    decodeWord 0b1100_0011_0000_1111 = .ok (.rnd 3 0x0F) := by decide

theorem test_decode_register_skips :
    decodeWord 0b0101_0001_0010_0000 = .ok (.ser 1 2) ∧ decodeWord 0b1001_1010_1011_0000 = .ok (.sner 10 11) ∧
    decodeWord 0x5121 = .ok (.ser 1 2) ∧ decodeWord 0x9AB7 = .ok (.sner 10 11) := by decide

theorem test_decode_family8 :
    decodeWord 0b1000_0001_0010_0000 = .ok (.ldr 1 2) ∧ decodeWord 0b1000_0001_0010_0001 = .ok (.or 1 2) ∧
    decodeWord 0b1000_0001_0010_0010 = .ok (.and 1 2) ∧ decodeWord 0b1000_0001_0010_0011 = .ok (.xor 1 2) ∧
    decodeWord 0b1000_0001_0010_0100 = .ok (.add 1 2) ∧ decodeWord 0b1000_0001_0010_0101 = .ok (.sub 1 2) ∧
    decodeWord 0b1000_1010_1011_0110 = .ok (.shr 10 11) ∧ decodeWord 0b1000_1111_0010_0111 = .ok (.subn 15 2) ∧
    decodeWord 0b1000_0100_0000_1110 = .ok (.shl 4 0) ∧ decodeWord 0x8008 = .error (.unrecognized 0x8008) := by decide

theorem test_decode_draw : decodeWord 0b1101_0000_0001_0101 = .ok (.drw 0 1 5) := by decide

theorem test_decode_familyE :
    decodeWord 0b1110_0001_1001_1110 = .ok (.skp 1) ∧ decodeWord 0b1110_0001_1010_0001 = .ok (.sknp 1) ∧
    decodeWord 0xE10E = .error (.unrecognized 0xE10E) := by decide

theorem test_decode_familyF :
    decodeWord 0b1111_0011_0000_0111 = .ok (.ldvdt 3) ∧ decodeWord 0b1111_0100_0000_1010 = .ok (.ldvk 4) ∧
    decodeWord 0b1111_0000_0001_0101 = .ok (.lddtv 0) ∧ decodeWord 0b1111_0000_0001_1000 = .ok (.ldstv 0) ∧
    decodeWord 0b1111_0101_0001_1110 = .ok (.addidx 5) ∧ decodeWord 0b1111_0010_0010_1001 = .ok (.ldf 2) ∧
    decodeWord 0b1111_0101_0011_0011 = .ok (.ldb 5) ∧ decodeWord 0b1111_0010_0101_0101 = .ok (.stm 2) ∧
    decodeWord 0b1111_1111_0110_0101 = .ok (.ldm 15) ∧ decodeWord 0xF00B = .error (.unrecognized 0xF00B) := by decide

theorem test_decode_bytes :
    decode [0x81, 0x24, 0x60] = .ok (.add 1 2, [0x60]) ∧ decode [0x81] = .error .tooShort ∧ decode [] = .error .tooShort := by
  decide

theorem test_encode_canonical : encode .cls = 0x00E0 ∧ encode .ret = 0x00EE ∧ encode (.ser 1 2) = 0x5120 ∧
    encode (.drw 0 1 5) = 0xD015 ∧ encode (.ldm 2) = 0xF265 := by decide

theorem test_decodeTableWord : decodeTableWord 16 0xD015 = some (.drw 0 1 5) ∧ decodeTableWord 16 0x8008 = none := by decide

/-! ### The cycle (vectors Y) -/

/-- Y1: an unrecognized word. -/
theorem test_unrecognized : (run { State.reset with dt := 3 } 0x8008).map (fun t => (t.pc, t.dt, t.v == State.reset.v, t.diags))
    = some (0x202, 2, true, [.unrecognized 0x8008]) := by decide

/-- Y2, Y3, Y4: the last word of memory, then a fetch outside it, then the halted block. -/
theorem test_fetch_edge : (run { State.reset with pc := 0xFFE } 0x6001).map (fun t => (t.pc, t.readV 0)) = some (0x1000, 1) := by
  decide
theorem test_fetch_fault : (nextOf (step { State.reset with pc := 0x1000, dt := 5 })).map (fun t => (t.pc, t.dt, t.halted))
    = some (0x1000, 5, some .fetchOutOfRange) := by decide
theorem test_halted : (nextOf (step { State.reset with halted := some .fetchOutOfRange, dt := 5, beep := true })).map
    (fun t => (t.pc, t.dt, t.halted, t.beep)) = some (0x200, 5, some .fetchOutOfRange, false) := by decide

/-- Y6: an odd pc. -/
theorem test_odd_pc : (run { State.reset with pc := 0x201 } 0x6107).map (fun t => (t.pc, t.readV 1)) = some (0x203, 7) := by decide

/-- Y8: the timers and the beep. -/
theorem test_tick : (run { State.reset with dt := 0xFF, st := 2 } 0x6000).map (fun t => (t.dt, t.st, t.beep)) = some (0xFE, 1, false) := by
  decide
theorem test_beep : (run { State.reset with dt := 0xFE, st := 1 } 0x6000).map (fun t => (t.dt, t.st, t.beep)) = some (0xFD, 0, true) := by
  decide

/-! ### Control transfer (vectors F) -/

theorem test_jp : (run State.reset 0x1234).map (·.pc) = some 0x234 := by decide
theorem test_call : (run { State.reset with pc := 0x300, sp := 15 } 0x2400).map (fun t => (t.stack[15], t.sp, t.pc))
    = some (0x302, 16, 0x400) := by decide
theorem test_call_overflow : (run { State.reset with pc := 0x400, sp := 16, dt := 9 } 0x2500).map
    (fun t => (t.pc, t.sp, t.dt, t.halted)) = some (0x400, 16, 9, some .stackOverflow) := by decide
theorem test_ret : (run { State.reset with pc := 0x300, sp := 1, stack := State.reset.stack.set 0 0x204 } 0x00EE).map
    (fun t => (t.pc, t.sp, t.stack[0])) = some (0x204, 0, 0x204) := by decide
theorem test_ret_underflow : (run State.reset 0x00EE).map (fun t => (t.pc, t.sp, t.halted)) = some (0x200, 0, some .stackUnderflow) := by
  decide
theorem test_sei : (run (withRegs [(3, 0x2A)]) 0x332A).map (·.pc) = some 0x204 ∧
    (run (withRegs [(3, 0x2B)]) 0x332A).map (·.pc) = some 0x202 := by decide
theorem test_snei : (run (withRegs [(3, 0x2A)]) 0x432A).map (·.pc) = some 0x202 ∧
    (run State.reset 0x432A).map (·.pc) = some 0x204 := by decide
theorem test_ser : (run (withRegs [(1, 7), (2, 7)]) 0x5120).map (·.pc) = some 0x204 := by decide
theorem test_sner : (run (withRegs [(1, 7), (2, 8)]) 0x9120).map (·.pc) = some 0x204 ∧
    (run (withRegs [(1, 7)]) 0x9110).map (·.pc) = some 0x202 := by decide
theorem test_jpv0 : (run (withRegs [(0, 0xFF)]) 0xBFFF).map (·.pc) = some 0x10FE := by decide

/-! ### ALU (vectors L) -/

theorem test_ldi : (run State.reset 0x6A42).map (fun t => (t.readV 10, t.pc)) = some (0x42, 0x202) := by decide
theorem test_addi : (run (withRegs [(1, 0xF0), (15, 7)]) 0x7120).map (fun t => (t.readV 1, t.readV 15)) = some (0x10, 7) := by decide
theorem test_ldr : (run (withRegs [(2, 0x33)]) 0x8120).map (fun t => (t.readV 1, t.readV 2)) = some (0x33, 0x33) := by decide
theorem test_or : (run (withRegs [(1, 0x0F), (2, 0xF0), (15, 9)]) 0x8121).map (fun t => (t.readV 1, t.readV 15)) = some (0xFF, 9) := by
  decide
theorem test_and : (run (withRegs [(1, 0x3C), (2, 0x0F)]) 0x8122).map (·.readV 1) = some 0x0C := by decide
theorem test_xor : (run (withRegs [(1, 0xFF), (2, 0x0F)]) 0x8123).map (·.readV 1) = some 0xF0 := by decide
/-- S6, and L13 (x = F). -/
theorem test_add : (run (withRegs [(1, 0xFF), (2, 0x01)]) 0x8124).map (fun t => (t.readV 1, t.readV 2, t.readV 15)) = some (0, 1, 1) ∧
    (run (withRegs [(15, 0x10), (2, 0xF5)]) 0x8F24).map (·.readV 15) = some 0xF6 := by decide
/-- L14, L15 (y = F, x = y = F). -/
theorem test_add_alias : (run (withRegs [(1, 0x10), (15, 0xF5)]) 0x81F4).map (fun t => (t.readV 1, t.readV 15)) = some (0x11, 1) ∧
    (run (withRegs [(15, 0x80)]) 0x8FF4).map (·.readV 15) = some 2 := by decide
/-- S7, L17, L19, L20. -/
theorem test_sub : (run (withRegs [(1, 1), (2, 2)]) 0x8125).map (fun t => (t.readV 1, t.readV 15)) = some (0xFF, 0) ∧
    (run (withRegs [(1, 5), (2, 5), (15, 9)]) 0x8125).map (fun t => (t.readV 1, t.readV 15)) = some (0, 0) := by decide
theorem test_sub_alias : (run (withRegs [(15, 9), (2, 2)]) 0x8F25).map (·.readV 15) = some 0xFF ∧
    (run (withRegs [(1, 0x10), (15, 3)]) 0x81F5).map (fun t => (t.readV 1, t.readV 15)) = some (0x0F, 1) := by decide
/-- L22, L23, L24. -/
theorem test_shr : (run (withRegs [(3, 1)]) 0x8376).map (fun t => (t.readV 3, t.readV 15)) = some (0, 1) ∧
    (run (withRegs [(3, 0xFE)]) 0x8306).map (fun t => (t.readV 3, t.readV 15)) = some (0x7F, 0) ∧
    (run (withRegs [(15, 3)]) 0x8F06).map (·.readV 15) = some 0 := by decide
/-- L25, L27, L28, L29 (wrap). -/
theorem test_subn : (run (withRegs [(1, 2), (2, 5)]) 0x8127).map (fun t => (t.readV 1, t.readV 15)) = some (3, 1) ∧
    (run (withRegs [(1, 5), (2, 2)]) 0x8127).map (fun t => (t.readV 1, t.readV 15)) = some (0xFD, 0) := by decide
theorem test_subn_alias : (run (withRegs [(15, 1), (2, 9)]) 0x8F27).map (·.readV 15) = some 8 ∧
    (run (withRegs [(1, 4), (15, 9)]) 0x81F7).map (fun t => (t.readV 1, t.readV 15)) = some (0xFD, 1) := by decide
/-- L27 under SUBN_UNDERFLOW = fault: the step is undone, the flag's write too. -/
theorem test_subn_fault_policy :
    (run { withRegs [(1, 5), (2, 2), (15, 9)] with subnUnderflow := .fault } 0x8127).map
      (fun t => (t.pc, t.readV 1, t.readV 15, t.halted)) = some (0x200, 5, 9, some .subnUnderflow) ∧
    (run { withRegs [(1, 2), (2, 5)] with subnUnderflow := .fault } 0x8127).map (fun t => (t.readV 1, t.readV 15, t.halted)) =
      some (3, 1, none) := by decide
/-- L32, L33, L34. -/
theorem test_shl : (run (withRegs [(4, 0x90)]) 0x840E).map (fun t => (t.readV 4, t.readV 15)) = some (0x20, 0x10) ∧
    (run (withRegs [(4, 0x0F)]) 0x84FE).map (fun t => (t.readV 4, t.readV 15)) = some (0x1E, 0) ∧
    (run (withRegs [(15, 0x10)]) 0x8F0E).map (·.readV 15) = some 0x20 := by decide
/-- L36: whatever the RND byte is, here the first of the free stream. -/
theorem test_rnd : (run State.reset 0xC30F).map (·.readV 3) = some (Config.rndByte 0 &&& 0x0F) := rfl

/-! ### Index register and memory transfer (vectors M) -/

theorem test_ldidx : (run State.reset 0xA2F0).map (·.index) = some 0x2F0 := by decide
theorem test_addidx : (run { withRegs [(5, 2)] with index := 0xFFFF } 0xF51E).map (fun t => (t.index, t.readV 15)) = some (1, 0) := by
  decide
theorem test_ldf : (run (withRegs [(2, 0x0F)]) 0xF229).map (·.index) = some 0x9B ∧
    (run (withRegs [(2, 0xFF)]) 0xF229).map (·.index) = some 0x54B := by decide
/-- M10 and M11. -/
theorem test_ldb : (run { withRegs [(0, 255)] with index := 0x300 } 0xF033).map
    (fun t => (t.byteAt 0x300, t.byteAt 0x301, t.byteAt 0x302)) = some (some 2, some 5, some 5) := by decide
theorem test_ldb_edge : (run { withRegs [(0, 123)] with index := 0xFFE } 0xF033).map
    (fun t => (t.byteAt 0xFFE, t.byteAt 0xFFF, t.diags)) = some (some 1, some 2, [.memOutOfRange 0x1000 .write]) := by decide
/-- M12, M13. -/
theorem test_stm : (run { withRegs [(0, 1), (1, 2), (2, 3), (3, 9)] with index := 0x400 } 0xF255).map
    (fun t => ([t.byteAt 0x400, t.byteAt 0x401, t.byteAt 0x402, t.byteAt 0x403], t.index))
    = some ([some 1, some 2, some 3, some 0], 0x400) := by decide
/-- M15: a store into the reserved region. -/
theorem test_stm_reserved : (run { withRegs [(0, 0x77)] with index := 0x52 } 0xF055).map (·.byteAt 0x52) = some (some 0x77) := by
  decide
/-- M16 and M17. -/
theorem test_ldm : (run (withBytes { State.reset with index := 0x400 } [(0x400, 7), (0x401, 8), (0x402, 9)]) 0xF265).map
    (fun t => (t.readV 0, t.readV 1, t.readV 2, t.index)) = some (7, 8, 9, 0x400) := by decide
theorem test_ldm_edge : (run (withBytes { withRegs [(2, 0x55), (3, 0x66)] with index := 0xFFE } [(0xFFE, 0xA), (0xFFF, 0xB)]) 0xF365).map
    (fun t => ([t.readV 0, t.readV 1, t.readV 2, t.readV 3], t.diags))
    = some ([0xA, 0xB, 0x55, 0x66], [.memOutOfRange 0x1000 .read, .memOutOfRange 0x1001 .read]) := by decide

/-! ### Display (vectors G) -/

/-- The columns of row `r` that are lit. -/
def litColumns (t : State) (r : Nat) : List Nat := (List.range 64).filter (fun c => t.cell (r * 64 + c))

theorem test_cls : (run { State.reset with display := Vector.replicate 32 0xFF } 0x00E0).map (fun t => (t.display, t.readV 15))
    = some (Vector.replicate 32 0, 0) := by decide
/-- G2: coordinates reduce modulo the display size. -/
theorem test_drw_wraps_start : (run (withBytes { withRegs [(0, 0x41), (1, 0x22)] with index := 0x300 } [(0x300, 0x81)]) 0xD011).map
    (fun t => (litColumns t 2, t.readV 15)) = some ([1, 8], 0) := by decide
/-- G3: clipping at the right edge. -/
theorem test_drw_clips : (run (withBytes { withRegs [(0, 60), (1, 31)] with index := 0x300 } [(0x300, 0xFF)]) 0xD011).map
    (fun t => (litColumns t 31, t.readV 15, t.diags)) = some ([60, 61, 62, 63], 0, [.displayClipped 60 31 1]) := by decide
/-- G6: a sprite row outside memory. -/
theorem test_drw_outside_memory : (run (withBytes { State.reset with index := 0xFFF } [(0xFFF, 0xC0)]) 0xD012).map
    (fun t => (litColumns t 0, t.diags)) = some ([0, 1], [.memOutOfRange 0x1000 .read]) := by decide
/-- G7: VF as a coordinate is read before it is cleared. -/
theorem test_drw_vf_coordinate : (run (withBytes { withRegs [(15, 5)] with index := 0x300 } [(0x300, 0x80)]) 0xDF11).map
    (fun t => (litColumns t 0, t.readV 15)) = some ([5], 0) := by decide
/-- G9: a sticky collision. -/
theorem test_drw_collision : (run (withBytes { State.reset with index := 0x300, display := flipCell State.reset.display 1 0 }
    [(0x300, 0xF0)]) 0xD001).map (fun t => (litColumns t 0, t.readV 15)) = some ([0, 2, 3], 1) := by decide

/-! ### Keys and timers (vectors T) -/

theorem test_skp : (run (withKeys (withRegs [(1, 5)]) [5]) 0xE19E).map (·.pc) = some 0x204 ∧
    (run (withRegs [(1, 5)]) 0xE19E).map (·.pc) = some 0x202 := by decide
/-- T5 and T6. -/
theorem test_skp_out_of_range : (run (withRegs [(1, 0x10)]) 0xE19E).map (fun t => (t.pc, t.diags)) = some (0x202, [.keyIndexOutOfRange 0x10]) := by
  decide
theorem test_sknp : (run (withRegs [(1, 5)]) 0xE1A1).map (·.pc) = some 0x204 ∧
    (run (withKeys (withRegs [(1, 5)]) [5]) 0xE1A1).map (·.pc) = some 0x202 := by decide
theorem test_sknp_out_of_range : (run (withRegs [(1, 0xFF)]) 0xE1A1).map (fun t => (t.pc, t.diags)) = some (0x202, [.keyIndexOutOfRange 0xFF]) := by
  decide
theorem test_ldvdt : (run { State.reset with dt := 0x10 } 0xF307).map (fun t => (t.readV 3, t.dt)) = some (0x10, 0x0F) := by decide
/-- T10 and S9. -/
theorem test_ldvk_waits : (run { State.reset with dt := 2 } 0xF40A).map (fun t => (t.pc, t.readV 4, t.dt)) = some (0x200, 0, 1) := by decide
theorem test_ldvk : (run (withKeys State.reset [9, 3]) 0xF40A).map (fun t => (t.pc, t.readV 4)) = some (0x202, 3) := by decide
theorem test_lddtv : (run (withRegs [(0, 3)]) 0xF015).map (·.dt) = some 2 := by decide
/-- T15 and T17. -/
theorem test_ldstv : (run (withRegs [(0, 1)]) 0xF018).map (fun t => (t.st, t.beep)) = some (0, true) ∧
    (run { State.reset with st := 1 } 0xF018).map (fun t => (t.st, t.beep)) = some (0, false) := by decide

/-! ### Reset and load (vectors Z) -/

theorem test_reset_memory : [0x050, 0x054, 0x09B, 0x09F, 0x0A0, 0x000].map State.reset.byteAt
    = [some 0xF0, some 0xF0, some 0xF0, some 0x80, some 0, some 0] ∧ State.reset.byteAt 0x1000 = none := by decide
theorem test_reset_mem_wf : Memory.wf State.reset.mem := Memory.wf_nil
/-- Z2. -/
theorem test_init_leaves_halted : initMachine { State.reset with halted := some .stackOverflow, pc := 0x300 } = State.reset := by decide
/-- Z5 and Z7. -/
theorem test_load : load [0x12, 0x00] { State.reset with pc := 0x300, halted := some .stackUnderflow } =
    (.ok, { State.reset with pc := 0x300, halted := some .stackUnderflow, mem := [(0x200, 0x12)] }) := by decide
/-- Z6. -/
theorem test_load_error : load (List.replicate 3585 0) State.reset = (.loadError, State.reset) := by
  unfold load; rw [test_wellFormedProgram_refuses]; rfl

/-! ### Witnesses: for each statement with hypotheses, a state and operands that meet them, each clause at a boundary -/

/-- The state with the word at pc. -/
def placed (s : State) (w : Nat) : State := s.withFetchWord 16 w

theorem witness_decoded : decodeWord 0x8AB6 = .ok (.shr 10 11) ∧ decodeWord 0x0FF0 = .ok .cls := by decide
theorem witness_row : decodeWord 0x912F = .ok (.sner 1 2) ∧ (⟨"SNE_Vx_Vy", 0xF000, 0x9000⟩ : OpcodeRow) ∈ opcodeTable := by
  decide
theorem witness_fetch_bounds : ({ State.reset with pc := 0xFFE } : State).pc.toNat ≤ 0xFFE ∧
    0xFFF ≤ ({ State.reset with pc := 0xFFF } : State).pc.toNat := by decide
theorem witness_runs : (placed State.reset 0xD015).Runs (.drw 0 1 5) := ⟨0xD015, ⟨rfl, by decide⟩, by decide⟩
theorem witness_unrecognized : (placed State.reset 0x8008).Fetches 0x8008 ∧ decodeWord 0x8008 = .error (.unrecognized 0x8008) :=
  ⟨⟨rfl, by decide⟩, by decide⟩
theorem witness_fetch_outside : ({ State.reset with pc := 0xFFF } : State).Running ∧
    0xFFF ≤ ({ State.reset with pc := 0xFFF } : State).pc.toNat := by decide
theorem witness_halted : ({ State.reset with halted := some .stackOverflow } : State).halted = some .stackOverflow := rfl
theorem witness_stack_full : (∃ nnn, (placed { State.reset with sp := 16 } 0x2300).Runs (.call nnn)) ∧
    (placed { State.reset with sp := 16 } 0x2300).sp.val = 16 := ⟨⟨0x300, 0x2300, ⟨rfl, by decide⟩, by decide⟩, rfl⟩
theorem witness_stack_empty : (placed State.reset 0x00EE).Runs .ret ∧ (placed State.reset 0x00EE).sp.val = 0 :=
  ⟨⟨0x00EE, ⟨rfl, by decide⟩, by decide⟩, rfl⟩
/-- Each cause of a hard fault occurs. -/
theorem witness_halting :
    (nextOf (step { State.reset with pc := 0xFFF })).map (·.halted) = some (some .fetchOutOfRange) ∧
    (nextOf (step (placed { State.reset with sp := 16 } 0x2300))).map (·.halted) = some (some .stackOverflow) ∧
    (nextOf (step (placed State.reset 0x00EE))).map (·.halted) = some (some .stackUnderflow) ∧
    (nextOf (step (placed { withRegs [(1, 5), (2, 4)] with subnUnderflow := .fault } 0x8127))).map (·.halted) =
      some (some .subnUnderflow) := by decide
/-- The two timer writes, and a step that is neither (another instruction runs, so no other does). -/
theorem witness_timers : (placed State.reset 0xF015).Runs (.lddtv 0) ∧ (placed State.reset 0xF018).Runs (.ldstv 0) ∧
    (placed State.reset 0xF007).Runs (.ldvdt 0) :=
  ⟨⟨0xF015, ⟨rfl, by decide⟩, by decide⟩, ⟨0xF018, ⟨rfl, by decide⟩, by decide⟩, ⟨0xF007, ⟨rfl, by decide⟩, by decide⟩⟩
theorem witness_parked : (placed State.reset 0x1200).Parked := ⟨rfl, by decide, by decide, rfl, rfl⟩
theorem witness_call : ({ State.reset with sp := 15 } : State).sp.val < 16 ∧ ({ State.reset with sp := 16 } : State).sp.val = 16 := by
  decide
theorem witness_return : 0 < ({ State.reset with sp := 16 } : State).sp.val ∧ State.reset.sp.val = 0 := by decide
theorem witness_low_nibble : (0x512F : Word).toNat / 4096 = 0x5 ∧ (0x9121 : Word).toNat / 4096 = 0x9 := by decide
/-- The four cases of the flag instructions, and both values of each flag at its boundary. -/
theorem witness_alias : (1 : Reg) ≠ vf ∧ (14 : Reg) ≠ vf ∧ (15 : Reg) = vf := by decide
theorem witness_flags :
    1 = (if ((withRegs [(1, 0xFF), (2, 1)]).readV 1).toNat + ((withRegs [(1, 0xFF), (2, 1)]).readV 2).toNat > 255 then 1 else 0) ∧
    0 = (if ((withRegs [(1, 0xFE), (2, 1)]).readV 1).toNat + ((withRegs [(1, 0xFE), (2, 1)]).readV 2).toNat > 255 then 1 else 0) ∧
    0 = (if ((withRegs [(1, 5), (2, 5)]).readV 1).toNat > ((withRegs [(1, 5), (2, 5)]).readV 2).toNat then 1 else 0) ∧
    1 = (if ((withRegs [(1, 5), (2, 4)]).readV 1).toNat > ((withRegs [(1, 5), (2, 4)]).readV 2).toNat then 1 else 0) := by
  decide
/-- Both values of SUBN_UNDERFLOW, a difference of -1 and one of 0, and a step that runs the first. -/
theorem witness_subn_policy : State.reset.subnUnderflow = .wrap ∧
    (placed { withRegs [(1, 5), (2, 4)] with subnUnderflow := .fault } 0x8127).subnUnderflow = .fault ∧
    (placed { withRegs [(1, 5), (2, 4)] with subnUnderflow := .fault } 0x8127).SubnBelowZero 1 2 ∧
    (placed { withRegs [(1, 5), (2, 4)] with subnUnderflow := .fault } 0x8127).Runs (.subn 1 2) ∧
    ¬ ({ withRegs [(1, 5), (2, 5)] with subnUnderflow := .fault } : State).SubnBelowZero 1 2 :=
  ⟨rfl, rfl, by unfold State.SubnBelowZero; decide, ⟨0x8127, ⟨rfl, by decide⟩, by decide⟩, by unfold State.SubnBelowZero; decide⟩
theorem witness_not_rnd : (∀ x kk, Instr.cls ≠ .rnd x kk) ∧ (nextOf (exec .cls State.reset)).isSome :=
  ⟨fun _ _ h => (nomatch h), by decide⟩
/-- A multi-byte transfer that ends on the last byte of memory, and one that goes past it. -/
theorem witness_transfer : Memory.wf State.reset.mem ∧
    ({ State.reset with index := 0xFFD } : State).effAddr 2 < 4096 ∧ ¬ ({ State.reset with index := 0xFFE } : State).effAddr 2 < 4096 ∧
    ({ State.reset with index := 0xFF0 } : State).effAddr (15 : Reg).val < 4096 ∧ (15 : Reg) ≤ 15 ∧ (14 : Reg) < 15 :=
  ⟨Memory.wf_nil, by decide⟩
/-- LD [I],V1 onto the whole next word, the last of memory; LD [I],V0 onto its first byte only (vector Y9); LD B whose
last digit is its first byte. -/
theorem witness_store_seen : Memory.wf (placed { State.reset with pc := 0xFFC, index := 0xFFE } 0xF155).mem ∧
    (placed { State.reset with pc := 0xFFC, index := 0xFFE } 0xF155).Runs (.stm 1) ∧
    (placed { State.reset with pc := 0xFFC, index := 0xFFE } 0xF155).pc.toNat ≤ 0xFFC ∧
    (placed { State.reset with pc := 0xFFC, index := 0xFFE } 0xF155).index.toNat =
      (placed { State.reset with pc := 0xFFC, index := 0xFFE } 0xF155).pc.toNat + 2 ∧
    (placed { State.reset with index := 0x202 } 0xF055).Runs (.stm 0) ∧
    (placed { State.reset with index := 0x200 } 0xF033).Runs (.ldb 0) :=
  ⟨Memory.wf_writeBytes Memory.wf_nil _ _, ⟨0xF155, ⟨rfl, by decide⟩, by decide⟩, by decide, by decide,
   ⟨0xF055, ⟨rfl, by decide⟩, by decide⟩, ⟨0xF033, ⟨rfl, by decide⟩, by decide⟩⟩
/-- Y9: the byte stored over the next word's first byte is fetched. -/
theorem test_store_seen :
    let s := withBytes { withRegs [(0, 0x61)] with index := 0x202 } [(0x200, 0xF0), (0x201, 0x55), (0x203, 5)]
    (nextOf (step s)).bind (·.fetch) = some 0x6105 := by decide

/-- A sprite byte 0xC0 whose first bit falls on the last cell of the display and whose second is off it. -/
def cornerSprite : State := withBytes { State.reset with index := 0x300 } [(0x300, 0xC0)]
theorem witness_covers : cornerSprite.SpriteCovers 63 31 1 63 31 ∧ cornerSprite.SpriteCovers 63 31 1 64 31 :=
  ⟨⟨0, 0, 0xC0, by decide, by decide, by decide, by decide, by decide, by decide⟩,
   ⟨0, 1, 0xC0, by decide, by decide, by decide, by decide, by decide, by decide⟩⟩
theorem witness_collision : ({ cornerSprite with display := Vector.replicate 32 1 } : State).SpriteCovers 63 31 1 63 31 ∧
    ({ cornerSprite with display := Vector.replicate 32 1 } : State).cell (31 * 64 + 63) = true :=
  ⟨⟨0, 0, 0xC0, by decide, by decide, by decide, by decide, by decide, by decide⟩, by decide⟩
/-- A draw that covers nothing, so that it neither collides nor clips. -/
theorem witness_covers_nothing : ∀ c r, ¬ State.reset.SpriteCovers 0 0 0 c r := by
  rintro c r ⟨i, k, b, hi, -⟩
  exact absurd hi (by simp)
theorem witness_key_index : ((withRegs [(1, 15)]).readV 1).toNat = (15 : Fin 16).val ∧ 16 ≤ ((withRegs [(1, 16)]).readV 1).toNat := by
  decide
theorem witness_key_wait : (withKeys State.reset [15]).keys[(15 : Fin 16)] = true ∧
    (∀ j : Fin 16, j < 15 → (withKeys State.reset [15]).keys[j] = false) ∧ (∀ k : Fin 16, (placed State.reset 0xF30A).keys[k] = false) ∧
    (placed State.reset 0xF30A).Runs (.ldvk 3) :=
  ⟨by decide, by decide, by decide, ⟨0xF30A, ⟨rfl, by decide⟩, by decide⟩⟩
theorem witness_glyphs : (⟨glyphTable.toArray, by decide⟩ : Vector Byte 80).toList = glyphTable := by decide
theorem witness_load : Memory.wf State.reset.mem ∧ (List.replicate 3584 (0 : Byte)).length ≤ 3584 ∧
    3584 < (List.replicate 3585 (0 : Byte)).length ∧ (List.replicate 3582 (0 : Byte)).length ≤ 3582 :=
  ⟨Memory.wf_nil, by rw [List.length_replicate], by rw [List.length_replicate]; decide, by rw [List.length_replicate]⟩
/-- The largest pc, a full stack of the largest return addresses, and a state that halted there. -/
theorem witness_invariant : ({ State.reset with pc := 0x10FE, sp := 16, stack := Vector.replicate 16 0x1000 } : State).Inv ∧
    ({ State.reset with pc := 0x10FE, halted := some .fetchOutOfRange } : State).Inv := by
  constructor <;>
    exact ⟨Memory.wf_nil, by decide, by decide, by decide, by decide, by decide, by decide⟩
/-- Each element of the state that has writers is written by one. -/
theorem witness_writers :
    (nextOf (exec (.ldi 1 1) State.reset)).map (·.readV 1 == 0) = some false ∧
    (nextOf (exec (.jp 1) State.reset)).map (·.pc == 0x200) = some false ∧
    (nextOf (exec .cls { State.reset with display := Vector.replicate 32 1 })).map (·.display == Vector.replicate 32 1) = some false ∧
    (nextOf (exec (.call 0x300) State.reset)).map (fun t => (t.sp == 0, t.stack == State.reset.stack)) = some (false, false) ∧
    (nextOf (exec (.ldidx 1) State.reset)).map (·.index == 0) = some false ∧
    (nextOf (exec (.ldb 0) (withRegs [(0, 1)]))).map (·.mem == []) = some false ∧
    (nextOf (exec (.lddtv 0) (withRegs [(0, 1)]))).map (·.dt == 0) = some false ∧
    (nextOf (exec (.ldstv 0) (withRegs [(0, 1)]))).map (·.st == 0) = some false ∧
    (nextOf (exec .ret State.reset)).map (·.halted == none) = some false ∧
    (nextOf (exec (.skp 1) (withRegs [(1, 16)]))).map (·.diags == []) = some false ∧
    (nextOf (exec (.rnd 0 0) State.reset)).map (·.rndIndex == 0) = some false := by decide

end Sys2Proof.Tests
end

section
/-! SUPPORT. The compare-and-skip instructions (41_flow.md R124, R125). -/
namespace Sys2Proof.Machine

variable (s : State)

/-! ### A skip on a comparison of two bytes (41_flow.md R120) -/

theorem State.skipIf_beq (a b : Byte) : s.skipIf (a == b) = if a = b then { s with pc := s.pc + 2 } else s := by
  by_cases h : a = b
  · rw [if_pos h, beq_iff_eq.mpr h, State.skipIf_true]; rfl
  · rw [if_neg h, beq_eq_false_iff_ne.mpr h, State.skipIf_false]

theorem State.skipIf_bne (a b : Byte) : s.skipIf (a != b) = if a = b then s else { s with pc := s.pc + 2 } := by
  by_cases h : a = b
  · rw [if_pos h, bne_eq_false_iff_eq.mpr h, State.skipIf_false]
  · rw [if_neg h, bne_iff_ne.mpr h, State.skipIf_true]; rfl

/-! ### What the immediate skips execute -/

theorem exec_sei (x : Reg) (kk : Byte) : exec (.sei x kk) s = .next (s.skipIf (s.readV x == kk)) := rfl

theorem exec_snei (x : Reg) (kk : Byte) : exec (.snei x kk) s = .next (s.skipIf (s.readV x != kk)) := rfl

/-- Settles O21, from what a skip does on an equality and on an inequality of two bytes. -/
theorem immediateSkips : Obligations.ImmediateSkips := by
  intro x kk s
  constructor
  · rw [exec_sei, State.skipIf_beq]
  · rw [exec_snei, State.skipIf_bne]

end Sys2Proof.Machine
end

section
/-! SUPPORT. The instructions that write one register and nothing else (42_alu.md R142 to R144). -/
namespace Sys2Proof.Machine

variable (s : State)

/-! ### The frame of a register write (10_state.md R20) -/

/-- A register write stays within any effects that name its destination. -/
theorem State.writeV_frame {e : Effects} {x : Reg} (hx : x ∈ e.regs) (b : Byte) : Frame e s (s.writeV x b) where
  regs r hr := s.writeV_readV_ne x b r fun hrx => hr (hrx ▸ hx)
  bytes a _ := s.writeV_byteAt x b a
  index _ := s.writeV_index x b
  pc _ := s.writeV_pc x b
  sp _ := s.writeV_sp x b
  slots _ := s.writeV_stack x b
  dt _ := s.writeV_dt x b
  st _ := s.writeV_st x b
  display _ := s.writeV_display x b
  halted _ := s.writeV_halted x b
  diags _ := s.writeV_diags x b
  rnd _ := s.writeV_rndIndex x b
  keys := s.writeV_keys x b
  beep := s.writeV_beep x b
  subnUnderflow := s.writeV_subnUnderflow x b

/-- A result that is one register write: the value is read back and nothing else changes. -/
theorem exists_next_of_eq_writeV {res : Result} {x : Reg} {b : Byte} (h : res = .next (s.writeV x b)) :
    ∃ t, res = .next t ∧ t.readV x = b ∧ Frame { regs := [x] } s t :=
  ⟨s.writeV x b, h, s.writeV_readV_self x b, s.writeV_frame (List.mem_singleton_self x) b⟩

/-! ### What the loads and the immediate add execute -/

theorem exec_ldi (x : Reg) (kk : Byte) : exec (.ldi x kk) s = .next (s.writeV x kk) := rfl

theorem exec_addi (x : Reg) (kk : Byte) : exec (.addi x kk) s = .next (s.writeV x (s.readV x + kk)) := rfl

theorem exec_ldr (x y : Reg) : exec (.ldr x y) s = .next (s.writeV x (s.readV y)) := rfl

/-- Settles O23: each instruction is one register write, and a byte sum is the sum modulo 256. -/
theorem immediateLoadAndAdd : Obligations.ImmediateLoadAndAdd := by
  intro x kk s
  constructor
  · exact exists_next_of_eq_writeV s (exec_ldi s x kk)
  · obtain ⟨t, hexec, hread, hframe⟩ := exists_next_of_eq_writeV s (exec_addi s x kk)
    have hsum : (t.readV x).toNat = ((s.readV x).toNat + kk.toNat) % 256 := by
      rw [hread, BitVec.toNat_add]
    exact ⟨t, hexec, hsum, hframe⟩

/-- Settles O24: the copy is one register write of what Vy held. -/
theorem registerAssign : Obligations.RegisterAssign :=
  fun x y s => exists_next_of_eq_writeV s (exec_ldr s x y)

end Sys2Proof.Machine
end

section
/-! SUPPORT. The load of the index register with an address (43_index_memory.md R170). -/
namespace Sys2Proof.Machine

variable (s : State)

/-! ### An address as a word -/

theorem toNat_zext16 (nnn : Addr12) : (zext16 nnn).toNat = nnn.toNat :=
  BitVec.toNat_setWidth_of_le (by decide)

/-! ### The frame of a write to I -/

/-- A write to I stays within any effects that name I. -/
theorem State.setIndex_frame {e : Effects} (hI : e.index = true) (w : Word) : Frame e s (s.setIndex w) where
  regs r _ := s.setIndex_readV w r
  bytes a _ := s.setIndex_byteAt w a
  index h := absurd (h.symm.trans hI) Bool.false_ne_true
  pc _ := s.setIndex_pc w
  sp _ := s.setIndex_sp w
  slots _ := s.setIndex_stack w
  dt _ := s.setIndex_dt w
  st _ := s.setIndex_st w
  display _ := s.setIndex_display w
  halted _ := s.setIndex_halted w
  diags _ := s.setIndex_diags w
  rnd _ := s.setIndex_rndIndex w
  keys := s.setIndex_keys w
  beep := s.setIndex_beep w
  subnUnderflow := s.setIndex_subnUnderflow w

/-- A result that is one write to I: the word is the new I and nothing else changes. -/
theorem exists_next_of_eq_setIndex {res : Result} {w : Word} (h : res = .next (s.setIndex w)) :
    ∃ t, res = .next t ∧ t.index = w ∧ Frame { index := true } s t :=
  ⟨s.setIndex w, h, s.setIndex_index w, s.setIndex_frame rfl w⟩

/-! ### What the index load executes -/

theorem exec_ldidx (nnn : Addr12) : exec (.ldidx nnn) s = .next (s.setIndex (zext16 nnn)) := rfl

/-- Settles O33: the instruction is one write to I, and an address widened to a word keeps its value. -/
theorem loadIndex : Obligations.LoadIndex := by
  intro nnn s
  obtain ⟨t, hexec, hindex, hframe⟩ := exists_next_of_eq_setIndex s (exec_ldidx s nnn)
  have haddr : t.index.toNat = nnn.toNat := by
    rw [hindex, toNat_zext16]
  exact ⟨t, hexec, haddr, hframe⟩

end Sys2Proof.Machine
end

section
/-! SUPPORT. The clearing of the display (44_display.md R190). -/
namespace Sys2Proof.Machine

variable (s : State)

/-! ### The blank display (10_state.md R31) -/

/-- A display of zero rows has no cell on, whatever the column and row. -/
@[simp] theorem cellAt_replicate_zero (c r : Nat) : cellAt (Vector.replicate 32 0) c r = false := by
  unfold cellAt
  split
  · rw [Vector.getElem_replicate]
    exact BitVec.getMsbD_zero
  · rfl

/-! ### The frame of a change of the display -/

/-- A new display stays within any effects that name the display. -/
theorem State.withDisplay_frame {e : Effects} (hdisplay : e.display = true) (d : Display) :
    Frame e s { s with display := d } where
  regs _ _ := rfl
  bytes _ _ := rfl
  index _ := rfl
  pc _ := rfl
  sp _ := rfl
  slots _ := rfl
  dt _ := rfl
  st _ := rfl
  display h := absurd (h.symm.trans hdisplay) Bool.false_ne_true
  halted _ := rfl
  diags _ := rfl
  rnd _ := rfl
  keys := rfl
  beep := rfl
  subnUnderflow := rfl

/-! ### What CLS executes -/

theorem exec_cls : exec .cls s = .next { s with display := Vector.replicate 32 0 } := rfl

/-- Settles O40: the instruction replaces the display by the blank one, which has no cell on. -/
theorem clearTurnsEveryCellOff : Obligations.ClearTurnsEveryCellOff := by
  intro s
  have hoff : ∀ k < 2048, ({ s with display := Vector.replicate 32 0 } : State).cell k = false :=
    fun k _ => cellAt_replicate_zero (k % Config.dispW) (k / Config.dispW)
  exact ⟨_, exec_cls s, hoff, s.withDisplay_frame rfl _⟩

end Sys2Proof.Machine
end

section
/-! SUPPORT. The timer transfers, and the step that runs an instruction without a hard fault (45_keys_timers.md R214, R216,
R217; 40_cycle.md R100, R108). -/
namespace Sys2Proof.Machine

variable (s : State)

/-! ### The step of an instruction that raises no fault -/

theorem step_of_runs {s : State} {i : Instr} (h : s.Runs i) : step s = finishResult s (exec i s.preStep) := by
  obtain ⟨w, ⟨(hrunning : s.halted = none), hfetch⟩, hdecode⟩ := h
  simp only [step, cycle, executeWord, hrunning, hfetch, hdecode]

/-- An execute phase that leaves `halted` alone is followed by one tick. -/
theorem step_eq_timerTick_of_frame {s t : State} {i : Instr} {e : Effects} (h : s.Runs i)
    (hexec : exec i s.preStep = .next t) (hframe : Frame e s.preStep t) (he : e.halted = false) :
    step s = .next (timerTick t) := by
  have ⟨_, ⟨hrunning, _⟩, _⟩ := h
  have hhalted : t.halted = none := (hframe.halted he).trans hrunning
  rw [step_of_runs h, hexec, finishResult, finishStep_of_running hhalted]

/-- The beep of a tick tells whether the sound timer was 1 (60_exceptions.md R244). -/
theorem timerTick_beep_iff : (timerTick s).beep = true ↔ s.st.toNat = 1 := by
  rw [timerTick_beep, beq_iff_eq, ← BitVec.toNat_inj]
  rfl

/-! ### The frame of a write to the timers (10_state.md R28) -/

/-- New timer values stay within any effects that name each timer whose value is new. -/
theorem State.withTimers_frame {e : Effects} {d b : Byte} (hdt : e.dt = false → d = s.dt) (hst : e.st = false → b = s.st) :
    Frame e s { s with dt := d, st := b } where
  regs _ _ := rfl
  bytes _ _ := rfl
  index _ := rfl
  pc _ := rfl
  sp _ := rfl
  slots _ := rfl
  dt := hdt
  st := hst
  display _ := rfl
  halted _ := rfl
  diags _ := rfl
  rnd _ := rfl
  keys := rfl
  beep := rfl
  subnUnderflow := rfl

/-! ### What the timer transfers execute -/

theorem exec_ldvdt (x : Reg) : exec (.ldvdt x) s = .next (s.writeV x s.dt) := rfl

theorem exec_lddtv (x : Reg) : exec (.lddtv x) s = .next { s with dt := s.readV x } := rfl

theorem exec_ldstv (x : Reg) : exec (.ldstv x) s = .next { s with st := s.readV x } := rfl

theorem exec_ldvdt_spec (x : Reg) :
    ∃ t, exec (.ldvdt x) s = .next t ∧ t.readV x = s.dt ∧ Frame { regs := [x] } s t :=
  exists_next_of_eq_writeV s (exec_ldvdt s x)

theorem exec_lddtv_spec (x : Reg) :
    ∃ t, exec (.lddtv x) s = .next t ∧ t.dt = s.readV x ∧ Frame { dt := true } s t :=
  ⟨_, exec_lddtv s x, rfl, s.withTimers_frame nofun fun _ => rfl⟩

theorem exec_ldstv_spec (x : Reg) :
    ∃ t, exec (.ldstv x) s = .next t ∧ t.st = s.readV x ∧ Frame { st := true } s t :=
  ⟨_, exec_ldstv s x, rfl, s.withTimers_frame (fun _ => rfl) nofun⟩

/-! ### What the steps of the timer transfers leave -/

/-- Vx receives DT as it was before the tick of the same step. -/
theorem step_ldvdt_spec {s : State} {x : Reg} (h : s.Runs (.ldvdt x)) :
    ∃ t, step s = .next t ∧ t.readV x = s.dt ∧ t.dt.toNat = s.dt.toNat - 1 := by
  obtain ⟨t, hexec, hread, hframe⟩ := exec_ldvdt_spec s.preStep x
  have hdt : t.dt = s.dt := hframe.dt rfl
  refine ⟨timerTick t, step_eq_timerTick_of_frame h hexec hframe rfl, hread, ?_⟩
  rw [timerTick_dt, tickByte_toNat, hdt]

/-- The tick decrements the value DT has just received. -/
theorem step_lddtv_spec {s : State} {x : Reg} (h : s.Runs (.lddtv x)) :
    ∃ t, step s = .next t ∧ t.dt.toNat = (s.readV x).toNat - 1 := by
  obtain ⟨t, hexec, hdt, hframe⟩ := exec_lddtv_spec s.preStep x
  refine ⟨timerTick t, step_eq_timerTick_of_frame h hexec hframe rfl, ?_⟩
  rw [timerTick_dt, tickByte_toNat, hdt, State.preStep_readV]

/-- The tick decrements the value ST has just received, and beeps when that value is 1. -/
theorem step_ldstv_spec {s : State} {x : Reg} (h : s.Runs (.ldstv x)) :
    ∃ t, step s = .next t ∧ t.st.toNat = (s.readV x).toNat - 1 ∧ (t.beep = true ↔ (s.readV x).toNat = 1) := by
  obtain ⟨t, hexec, hst, hframe⟩ := exec_ldstv_spec s.preStep x
  refine ⟨timerTick t, step_eq_timerTick_of_frame h hexec hframe rfl, ?_, ?_⟩
  · rw [timerTick_st, tickByte_toNat, hst, State.preStep_readV]
  · rw [timerTick_beep_iff, hst, State.preStep_readV]

/-- Settles O47: each transfer is one write in the execute phase, which raises no fault, so the tick follows on its result. -/
theorem timerTransfers : Obligations.TimerTransfers := fun x s =>
  ⟨exec_ldvdt_spec s x, exec_lddtv_spec s x, exec_ldstv_spec s x, step_ldvdt_spec, step_lddtv_spec, step_ldstv_spec⟩

end Sys2Proof.Machine
end

section
/-! SUPPORT. What every step does to the timers and the beep (60_exceptions.md R243, R244; 40_cycle.md R108, R110). -/
namespace Sys2Proof.Machine

/-! ### The shared operations leave the timers alone (10_state.md R28) -/

/-- DT and ST are in `t` what they are in `s`. -/
def State.SameTimers (s t : State) : Prop := t.dt = s.dt ∧ t.st = s.st

theorem State.SameTimers.refl (s : State) : s.SameTimers s := ⟨rfl, rfl⟩

theorem skipIf_sameTimers (c : Bool) (s : State) : s.SameTimers (s.skipIf c) := by
  cases c with
  | true => exact ⟨rfl, rfl⟩
  | false => exact .refl s

theorem skipOnKey_sameTimers (wanted : Bool) (k : Byte) (s : State) : s.SameTimers (skipOnKey wanted k s) := by
  obtain ⟨-, h⟩ | ⟨-, h⟩ := skipOnKey_cases wanted k s
  · exact h ▸ ⟨rfl, rfl⟩
  · exact h ▸ skipIf_sameTimers _ s

theorem callTo_sameTimers (w : Word) (s : State) : s.SameTimers (callTo w s) := by
  obtain ⟨_, h⟩ | ⟨_, h⟩ := callTo_cases w s
  all_goals exact h ▸ ⟨rfl, rfl⟩

theorem returnFromCall_sameTimers (s : State) : s.SameTimers (returnFromCall s) := by
  obtain ⟨_, h⟩ | ⟨_, h⟩ := returnFromCall_cases s
  all_goals exact h ▸ ⟨rfl, rfl⟩

theorem subnWith_sameTimers (policy : Config.SubnUnderflow) (x y : Reg) (s : State) :
    s.SameTimers (subnWith policy x y s) := by
  obtain ⟨-, h⟩ | ⟨-, -, h⟩ := subnWith_cases policy x y s
  all_goals exact h ▸ ⟨rfl, rfl⟩

theorem keyWait_sameTimers (x : Reg) (s : State) : s.SameTimers (keyWait x s) := by
  obtain ⟨_, -, h⟩ | ⟨-, h⟩ := keyWait_cases x s
  all_goals exact h ▸ ⟨rfl, rfl⟩

theorem drawSprite_sameTimers (vx vy : Byte) (n : Nibble) (s : State) : s.SameTimers (drawSprite vx vy n s) :=
  drawSprite_eq vx vy n s ▸ ⟨rfl, rfl⟩

theorem storeBcd_sameTimers (b : Byte) (s : State) : s.SameTimers (storeBcd b s) :=
  storeBcd_eq b s ▸ ⟨rfl, rfl⟩

theorem foldl_storeReg_sameTimers (rs : List Reg) (s : State) : s.SameTimers (rs.foldl storeReg s) :=
  foldl_storeReg_eq rs s ▸ ⟨rfl, rfl⟩

theorem foldl_loadReg_sameTimers (rs : List Reg) (s : State) : s.SameTimers (rs.foldl loadReg s) :=
  foldl_loadReg_eq rs s ▸ ⟨rfl, rfl⟩

/-! ### The timers after the execute phase -/

/-- Every instruction but LD DT and LD ST leaves both timers alone. -/
theorem exec_sameTimers {i : Instr} (hdt : ∀ x, i ≠ .lddtv x) (hst : ∀ x, i ≠ .ldstv x) (s : State) :
    ∃ t, exec i s = .next t ∧ s.SameTimers t := by
  cases i with
  | lddtv x => exact absurd rfl (hdt x)
  | ldstv x => exact absurd rfl (hst x)
  | ret => exact ⟨_, rfl, returnFromCall_sameTimers s⟩
  | call nnn => exact ⟨_, rfl, callTo_sameTimers _ s⟩
  | sei x kk => exact ⟨_, rfl, skipIf_sameTimers _ s⟩
  | snei x kk => exact ⟨_, rfl, skipIf_sameTimers _ s⟩
  | ser x y => exact ⟨_, rfl, skipIf_sameTimers _ s⟩
  | sner x y => exact ⟨_, rfl, skipIf_sameTimers _ s⟩
  | skp x => exact ⟨_, rfl, skipOnKey_sameTimers _ _ s⟩
  | sknp x => exact ⟨_, rfl, skipOnKey_sameTimers _ _ s⟩
  | subn x y => exact ⟨_, rfl, subnWith_sameTimers _ x y s⟩
  | drw x y n => exact ⟨_, rfl, drawSprite_sameTimers _ _ n s⟩
  | ldvk x => exact ⟨_, rfl, keyWait_sameTimers x s⟩
  | ldb x => exact ⟨_, rfl, storeBcd_sameTimers _ s⟩
  | stm x => exact ⟨_, rfl, foldl_storeReg_sameTimers _ s⟩
  | ldm x => exact ⟨_, rfl, foldl_loadReg_sameTimers _ s⟩
  | _ => exact ⟨_, rfl, rfl, rfl⟩

/-- `u` holds in its timers what the tick of a step from `s` starts from: Vx where the step runs LD DT,Vx or LD ST,Vx
(45_keys_timers.md R216, R217), the timers of `s` otherwise. -/
structure State.LoadsTimers (s u : State) : Prop where
  dt_kept : (∀ x, ¬ s.Runs (.lddtv x)) → u.dt = s.dt
  dt_loaded : ∀ x, s.Runs (.lddtv x) → u.dt = s.readV x
  st_kept : (∀ x, ¬ s.Runs (.ldstv x)) → u.st = s.st
  st_loaded : ∀ x, s.Runs (.ldstv x) → u.st = s.readV x

theorem State.Runs.decodeWord_eq {s : State} {w : Word} {i : Instr} (h : s.Runs i) (hfetch : s.fetch = some w) :
    decodeWord w = .ok i := by
  obtain ⟨w', ⟨-, hfetch'⟩, hdecode⟩ := h
  rwa [Option.some.inj (hfetch.symm.trans hfetch')]

theorem State.Runs.unique {s : State} {i j : Instr} (hi : s.Runs i) (hj : s.Runs j) : i = j := by
  obtain ⟨w, ⟨-, hfetch⟩, hdecode⟩ := hi
  exact Except.ok.inj (hdecode.symm.trans (hj.decodeWord_eq hfetch))

/-- A step that runs neither LD DT nor LD ST ticks from the timers it found. -/
theorem State.SameTimers.loadsTimers {s u : State} (h : s.SameTimers u) (hdt : ∀ x, ¬ s.Runs (.lddtv x))
    (hst : ∀ x, ¬ s.Runs (.ldstv x)) : s.LoadsTimers u where
  dt_kept _ := h.1
  dt_loaded x hx := absurd hx (hdt x)
  st_kept _ := h.2
  st_loaded x hx := absurd hx (hst x)

theorem State.Runs.loadsTimers_of_lddtv {s : State} {x : Reg} (h : s.Runs (.lddtv x)) :
    s.LoadsTimers { s.preStep with dt := s.readV x } where
  dt_kept hno := absurd h (hno x)
  dt_loaded _ hy := congrArg s.readV (Instr.lddtv.inj (h.unique hy))
  st_kept _ := rfl
  st_loaded _ hy := nomatch h.unique hy

theorem State.Runs.loadsTimers_of_ldstv {s : State} {x : Reg} (h : s.Runs (.ldstv x)) :
    s.LoadsTimers { s.preStep with st := s.readV x } where
  dt_kept _ := rfl
  dt_loaded _ hy := nomatch h.unique hy
  st_kept hno := absurd h (hno x)
  st_loaded _ hy := congrArg s.readV (Instr.ldstv.inj (h.unique hy))

theorem exec_loadsTimers {s : State} {i : Instr} (h : s.Runs i) :
    ∃ u, exec i s.preStep = .next u ∧ s.LoadsTimers u := by
  by_cases hdt : ∃ x, i = .lddtv x
  · obtain ⟨x, rfl⟩ := hdt
    exact ⟨_, exec_lddtv s.preStep x, h.loadsTimers_of_lddtv⟩
  · by_cases hst : ∃ x, i = .ldstv x
    · obtain ⟨x, rfl⟩ := hst
      exact ⟨_, exec_ldstv s.preStep x, h.loadsTimers_of_ldstv⟩
    · have hdt' : ∀ x, i ≠ .lddtv x := not_exists.1 hdt
      have hst' : ∀ x, i ≠ .ldstv x := not_exists.1 hst
      obtain ⟨u, hexec, (hsame : s.SameTimers u)⟩ := exec_sameTimers hdt' hst' s.preStep
      exact ⟨u, hexec, hsame.loadsTimers (fun x hx => hdt' x (h.unique hx)) fun x hx => hst' x (h.unique hx)⟩

/-! ### The timers after the step -/

/-- A step that faults or is taken halted: no tick and no beep (R101, R110). -/
structure State.TimersHeld (s t : State) : Prop where
  incomplete : ¬ (s.Running ∧ t.Running)
  same : s.SameTimers t
  beep : t.beep = false

/-- A step that completes ends with one tick of the loaded timers (R108). -/
structure State.TimersTicked (s t : State) : Prop where
  complete : s.Running ∧ t.Running
  tick : ∃ u, s.LoadsTimers u ∧ t = timerTick u

theorem clearOutputs_timersHeld {s : State} {c : HaltCause} (hc : s.halted = some c) : s.TimersHeld s.clearOutputs where
  incomplete h := nomatch hc.symm.trans h.1
  same := ⟨rfl, rfl⟩
  beep := rfl

theorem abortStep_timersHeld (c : HaltCause) (s : State) : s.TimersHeld (abortStep c s) where
  incomplete h := nomatch h.2
  same := ⟨rfl, rfl⟩
  beep := rfl

/-- A fault raised in the execute phase holds the timers; otherwise they tick. -/
theorem finishStep_timers {s u : State} (hs : s.Running) (hu : s.LoadsTimers u) :
    s.TimersHeld (finishStep s u) ∨ s.TimersTicked (finishStep s u) := by
  cases hhalted : u.halted with
  | some c =>
    rw [finishStep_of_halted hhalted]
    exact .inl (abortStep_timersHeld c s)
  | none =>
    rw [finishStep_of_running hhalted]
    exact .inr ⟨⟨hs, hhalted⟩, u, hu, rfl⟩

/-- Every step answers a next state, and either holds the timers or ticks them once. -/
theorem step_timers (s : State) : ∃ t, step s = .next t ∧ (s.TimersHeld t ∨ s.TimersTicked t) := by
  obtain ⟨c, hc, hcycle⟩ | ⟨-, -, hcycle⟩ | ⟨hs, w, e, hfetch, hdecode, hcycle⟩ | ⟨hs, w, i, hfetch, hdecode, -⟩ :=
    cycle_cases s
  · exact ⟨_, hcycle, .inl (clearOutputs_timersHeld hc)⟩
  · exact ⟨_, hcycle, .inl (abortStep_timersHeld _ s)⟩
  · have hnone : ∀ i, ¬ s.Runs i := fun i hi => nomatch hdecode.symm.trans (hi.decodeWord_eq hfetch)
    have hsame : s.SameTimers (s.preStep.emit (.unrecognized w)) := ⟨rfl, rfl⟩
    exact ⟨_, hcycle, finishStep_timers hs (hsame.loadsTimers (fun _ => hnone _) fun _ => hnone _)⟩
  · have hruns : s.Runs i := ⟨w, ⟨hs, hfetch⟩, hdecode⟩
    obtain ⟨u, hexec, hu⟩ := exec_loadsTimers hruns
    have hstep : step s = .next (finishStep s u) := by rw [step_of_runs hruns, hexec, finishResult]
    exact ⟨_, hstep, finishStep_timers hs hu⟩

/-! ### One tick from known values -/

theorem timerTick_dt_of_eq {u : State} {b : Byte} (h : u.dt = b) : (timerTick u).dt.toNat = b.toNat - 1 := by
  rw [timerTick_dt, tickByte_toNat, h]

theorem timerTick_st_and_beep_of_eq {u : State} {b : Byte} (h : u.st = b) :
    (timerTick u).st.toNat = b.toNat - 1 ∧ ((timerTick u).beep = true ↔ b.toNat = 1) := by
  rw [timerTick_st, tickByte_toNat, timerTick_beep_iff, h]
  exact ⟨rfl, .rfl⟩

/-- Settles O14: a step either holds the timers or ends with one tick, from what its execute phase left in them. -/
theorem timersTickOncePerCompletedStep : Obligations.TimersTickOncePerCompletedStep := by
  intro s t hstep
  obtain ⟨t', hstep', htimers⟩ := step_timers s
  obtain rfl : t' = t := Host.Outcome.next.inj (hstep'.symm.trans hstep)
  obtain ⟨hincomplete, ⟨hdt, hst⟩, hbeep⟩ | ⟨hcomplete, u, hu, rfl⟩ := htimers
  · exact ⟨fun hs ht => absurd ⟨hs, ht⟩ hincomplete, fun _ => ⟨hdt, hst, hbeep⟩⟩
  · refine ⟨fun _ _ => ⟨?_, ?_, ?_, ?_⟩, fun hincomplete => absurd hcomplete hincomplete⟩
    · exact fun hno => timerTick_dt_of_eq (hu.dt_kept hno)
    · exact fun x hx => timerTick_dt_of_eq (hu.dt_loaded x hx)
    · exact fun hno => timerTick_st_and_beep_of_eq (hu.st_kept hno)
    · exact fun x hx => timerTick_st_and_beep_of_eq (hu.st_loaded x hx)

end Sys2Proof.Machine
end

section
/-! SUPPORT. What a load answers, by the length of the program (70_reset_and_hazards.md R262, R263). -/
namespace Sys2Proof.Machine

variable (s : State)

/-! ### The programs a load accepts -/

theorem wellFormedProgram_iff {bytes : List Byte} : wellFormedProgram bytes = true ↔ bytes.length ≤ Config.maxProg :=
  decide_eq_true_iff

/-! ### A load that fits and one that does not -/

/-- A program that fits is written from the load address on, and nothing else of the state changes (R262). -/
theorem load_of_length_le {bytes : List Byte} (h : bytes.length ≤ Config.maxProg) :
    load bytes s = (.ok, { s with mem := Memory.writeBytes Config.progBase bytes s.mem }) :=
  if_pos (wellFormedProgram_iff.mpr h)

/-- A program that does not fit is rejected whole (R263). -/
theorem load_of_lt_length {bytes : List Byte} (h : Config.maxProg < bytes.length) :
    load bytes s = (.loadError, s) :=
  if_neg fun hfits => Nat.not_le.mpr h (wellFormedProgram_iff.mp hfits)

theorem load_nil : load [] s = (.ok, s) := by
  rw [load_of_length_le s (bytes := []) (Nat.zero_le Config.maxProg), Memory.writeBytes]

/-- Settles O51: a program past the limit is rejected, and the empty program fits and writes no byte. -/
theorem oversizedLoadIsRejected : Obligations.OversizedLoadIsRejected :=
  ⟨fun _bytes s hlong => load_of_lt_length s hlong, load_nil⟩

end Sys2Proof.Machine
end

section
/-! SUPPORT. The encoder and the decoder against each other, by the formats of 30_encoding.md R73. -/
namespace Sys2Proof

/-! ### The families with a sub-code (R77, R78) -/

theorem decodeWord_family8 {w : Word} (h : fieldF w = 0x8) : decodeWord w = decodeFamily8 w := by simp [decodeWord, h]

theorem decodeWord_familyE {w : Word} (h : fieldF w = 0xE) : decodeWord w = decodeFamilyE w := by simp [decodeWord, h]

theorem decodeWord_familyF {w : Word} (h : fieldF w = 0xF) : decodeWord w = decodeFamilyF w := by simp [decodeWord, h]

/-! ### Decoding what was encoded -/

theorem decodeWord_encode (i : Instr) : decodeWord (encode i) = .ok i := by
  cases i with
  | cls | ret => rfl
  | jp nnn | call nnn | ldidx nnn | jpv0 nnn =>
    simp [encode, decodeWord, fieldF_encodeA, fieldNNN_encodeA]
  | sei x kk | snei x kk | ldi x kk | addi x kk | rnd x kk =>
    simp [encode, decodeWord, fieldF_encodeXK, fieldX_encodeXK, fieldKK_encodeXK]
  | ser x y | sner x y =>
    simp [encode, decodeWord, fieldF_encodeXYN, fieldX_encodeXYN, fieldY_encodeXYN]
  | drw x y n =>
    simp [encode, decodeWord, fieldF_encodeXYN, fieldX_encodeXYN, fieldY_encodeXYN, fieldN_encodeXYN]
  | ldr x y | or x y | and x y | xor x y | add x y | sub x y | shr x y | subn x y | shl x y =>
    rw [encode, decodeWord_family8 (fieldF_encodeXYN ..)]
    simp [decodeFamily8, fieldX_encodeXYN, fieldY_encodeXYN, fieldN_encodeXYN]
  | skp x | sknp x =>
    rw [encode, decodeWord_familyE (fieldF_encodeXK ..)]
    simp [decodeFamilyE, fieldX_encodeXK, fieldKK_encodeXK]
  | ldvdt x | ldvk x | lddtv x | ldstv x | addidx x | ldf x | ldb x | stm x | ldm x =>
    rw [encode, decodeWord_familyF (fieldF_encodeXK ..)]
    simp [decodeFamilyF, fieldX_encodeXK, fieldKK_encodeXK]

/-- The two bytes of an instruction at the front of a list decode as its word does. -/
theorem decode_encodeBytes_append (i : Instr) (rest : List Byte) :
    decode (encodeBytes i ++ rest) = (decodeWord (encode i)).map (·, rest) := by
  show (decodeWord (wordOfBytes (highByte (encode i)) (lowByte (encode i)))).map (·, rest) = _
  rw [wordOfBytes_highByte_lowByte]

/-- Settles O1, by the format of the instruction's word. -/
theorem decodeOfEncodeGivesTheInstruction : Obligations.DecodeOfEncodeGivesTheInstruction := by
  intro i rest
  refine ⟨decodeWord_encode i, ?_⟩
  rw [decode_encodeBytes_append, decodeWord_encode]
  rfl

/-! ### Encoding what was decoded -/

/-- Every word is a word of format A made of its own fields. -/
theorem eq_encodeA (w : Word) : w = encodeA (fieldF w) (fieldNNN w) := by
  apply BitVec.eq_of_toNat_eq
  rw [encodeA_toNat, fieldF_toNat, fieldNNN_toNat]
  omega

theorem encodeA_of_family {w : Word} {f : Nibble} (h : fieldF w = f) : encodeA f (fieldNNN w) = w :=
  h ▸ (eq_encodeA w).symm

theorem encodeXK_of_family {w : Word} {f : Nibble} (h : fieldF w = f) : encodeXK f (fieldX w) (fieldKK w) = w :=
  h ▸ (eq_encodeXK w).symm

theorem encodeXK_of_subcode {w : Word} {f : Nibble} {kk : Byte} (h : fieldF w = f) (hkk : fieldKK w = kk) :
    encodeXK f (fieldX w) kk = w :=
  hkk ▸ encodeXK_of_family h

theorem encodeXYN_of_family {w : Word} {f : Nibble} (h : fieldF w = f) :
    encodeXYN f (fieldX w) (fieldY w) (fieldN w) = w :=
  h ▸ (eq_encodeXYN w).symm

theorem encodeXYN_of_subcode {w : Word} {f n : Nibble} (h : fieldF w = f) (hn : fieldN w = n) :
    encodeXYN f (fieldX w) (fieldY w) n = w :=
  hn ▸ encodeXYN_of_family h

/-- How a word that decodes is made: it is the encoding of the instruction, up to the bits that families 0, 5 and 9 ignore
(R76, R79). -/
inductive DecodesTo (w : Word) : Instr → Prop where
  | encoded {i : Instr} (h : encode i = w) : DecodesTo w i
  | cls (hf : fieldF w = 0x0) (hn : fieldN w = 0x0) : DecodesTo w .cls
  | ret (hf : fieldF w = 0x0) (hn : fieldN w = 0xE) : DecodesTo w .ret
  | ser (hf : fieldF w = 0x5) : DecodesTo w (.ser (fieldX w) (fieldY w))
  | sner (hf : fieldF w = 0x9) : DecodesTo w (.sner (fieldX w) (fieldY w))

theorem decodesTo_of_family0 {w : Word} {i : Instr} (hf : fieldF w = 0x0) (h : decodeFamily0 w = .ok i) :
    DecodesTo w i := by
  unfold decodeFamily0 at h
  split at h
  case h_1 hn => cases h; exact .cls hf (BitVec.eq_of_toNat_eq hn)
  case h_2 hn => cases h; exact .ret hf (BitVec.eq_of_toNat_eq hn)
  case h_3 => cases h

theorem encode_of_family8 {w : Word} {i : Instr} (hf : fieldF w = 0x8) (h : decodeFamily8 w = .ok i) :
    encode i = w := by
  unfold decodeFamily8 at h
  split at h
  case h_10 => cases h
  all_goals next hn => cases h; exact encodeXYN_of_subcode hf (BitVec.eq_of_toNat_eq hn)

theorem encode_of_familyE {w : Word} {i : Instr} (hf : fieldF w = 0xE) (h : decodeFamilyE w = .ok i) :
    encode i = w := by
  unfold decodeFamilyE at h
  split at h
  case h_3 => cases h
  all_goals next hkk => cases h; exact encodeXK_of_subcode hf (BitVec.eq_of_toNat_eq hkk)

theorem encode_of_familyF {w : Word} {i : Instr} (hf : fieldF w = 0xF) (h : decodeFamilyF w = .ok i) :
    encode i = w := by
  unfold decodeFamilyF at h
  split at h
  case h_10 => cases h
  all_goals next hkk => cases h; exact encodeXK_of_subcode hf (BitVec.eq_of_toNat_eq hkk)

theorem decodesTo_of_decodeWord {w : Word} {i : Instr} (h : decodeWord w = .ok i) : DecodesTo w i := by
  unfold decodeWord at h
  split at h
  case h_1 hf => exact decodesTo_of_family0 (BitVec.eq_of_toNat_eq hf) h
  case h_9 hf => exact .encoded (encode_of_family8 (BitVec.eq_of_toNat_eq hf) h)
  case h_15 hf => exact .encoded (encode_of_familyE (BitVec.eq_of_toNat_eq hf) h)
  case h_16 hf => exact .encoded (encode_of_familyF (BitVec.eq_of_toNat_eq hf) h)
  case h_6 hf => cases h; exact .ser (BitVec.eq_of_toNat_eq hf)
  case h_10 hf => cases h; exact .sner (BitVec.eq_of_toNat_eq hf)
  case h_14 hf => cases h; exact .encoded (encodeXYN_of_family (BitVec.eq_of_toNat_eq hf))
  case h_2 hf | h_3 hf | h_11 hf | h_12 hf =>
    cases h; exact .encoded (encodeA_of_family (BitVec.eq_of_toNat_eq hf))
  case h_4 hf | h_5 hf | h_7 hf | h_8 hf | h_13 hf =>
    cases h; exact .encoded (encodeXK_of_family (BitVec.eq_of_toNat_eq hf))
  case h_17 => cases h

/-- Masking a word with 0xF00F leaves the family and the low nibble. -/
theorem word_and_subcode (w : Word) : w &&& 0xF00F = fieldF w ++ 0#4 ++ 0#4 ++ fieldN w := by
  conv_lhs => rw [eq_encodeXYN w]
  exact encodeXYN_and_subcode ..

/-- Masking a word of format XYN with 0xFFF0 drops the low nibble. -/
theorem encodeXYN_and_operands (f : Nibble) (x y : Reg) (n : Nibble) :
    encodeXYN f x y n &&& 0xFFF0 = encodeXYN f x y 0 := by
  show ((f ++ regBits x ++ regBits y ++ n) &&& (0xF#4 ++ 0xF#4 ++ 0xF#4 ++ 0#4) : BitVec (4 + 4 + 4 + 4)) = _
  rw [BitVec.and_append, BitVec.and_append, BitVec.and_append]
  simp only [nibble_and_ones, BitVec.and_zero]
  rfl

/-- Words of families 5 and 9 agree with the canonical ones on the bits that are examined (R79). -/
theorem encodeXYN_operands_of_family {w : Word} {f : Nibble} (hf : fieldF w = f) :
    encodeXYN f (fieldX w) (fieldY w) 0 &&& 0xFFF0 = w &&& 0xFFF0 := by
  conv_rhs => rw [← encodeXYN_of_family hf]
  rw [encodeXYN_and_operands, encodeXYN_and_operands]

theorem DecodesTo.examinedBits_eq {w : Word} {i : Instr} (h : DecodesTo w i) :
    encode i &&& examinedBits i = w &&& examinedBits i := by
  cases h with
  | encoded h => rw [h]
  | cls hf hn | ret hf hn => rw [examinedBits, word_and_subcode w, hf, hn]; rfl
  | ser hf | sner hf => exact encodeXYN_operands_of_family hf

/-- Settles O2: a word that decodes is the encoding of its instruction but for the bits the decoder ignores. -/
theorem encodeOfDecodeKeepsExaminedBits : Obligations.EncodeOfDecodeKeepsExaminedBits :=
  fun _w _i h => (decodesTo_of_decodeWord h).examinedBits_eq

/-! ### The decoder and the rows of the opcode map -/

/-- A row examines no bit the decoder ignores (R76, R79). -/
theorem examinedBits_and_rowOf_mask (i : Instr) : examinedBits i &&& (rowOf i).mask = (rowOf i).mask := by
  cases i with
  | cls | ret => exact BitVec.and_self
  | ser x y | sner x y => exact (by decide : (0xFFF0 : Word) &&& 0xF000 = 0xF000)
  | _ => exact BitVec.allOnes_and

theorem tableRow (i : Instr) : Laws.TableRow.Statement i := by
  cases i with
  | cls => exact Laws.TableRow.cls
  | ret => exact Laws.TableRow.ret
  | jp nnn => exact Laws.TableRow.jp nnn
  | call nnn => exact Laws.TableRow.call nnn
  | sei x kk => exact Laws.TableRow.sei x kk
  | snei x kk => exact Laws.TableRow.snei x kk
  | ser x y => exact Laws.TableRow.ser x y
  | ldi x kk => exact Laws.TableRow.ldi x kk
  | addi x kk => exact Laws.TableRow.addi x kk
  | ldr x y => exact Laws.TableRow.ldr x y
  | or x y => exact Laws.TableRow.or x y
  | and x y => exact Laws.TableRow.and x y
  | xor x y => exact Laws.TableRow.xor x y
  | add x y => exact Laws.TableRow.add x y
  | sub x y => exact Laws.TableRow.sub x y
  | shr x y => exact Laws.TableRow.shr x y
  | subn x y => exact Laws.TableRow.subn x y
  | shl x y => exact Laws.TableRow.shl x y
  | sner x y => exact Laws.TableRow.sner x y
  | ldidx nnn => exact Laws.TableRow.ldidx nnn
  | jpv0 nnn => exact Laws.TableRow.jpv0 nnn
  | rnd x kk => exact Laws.TableRow.rnd x kk
  | drw x y n => exact Laws.TableRow.drw x y n
  | skp x => exact Laws.TableRow.skp x
  | sknp x => exact Laws.TableRow.sknp x
  | ldvdt x => exact Laws.TableRow.ldvdt x
  | ldvk x => exact Laws.TableRow.ldvk x
  | lddtv x => exact Laws.TableRow.lddtv x
  | ldstv x => exact Laws.TableRow.ldstv x
  | addidx x => exact Laws.TableRow.addidx x
  | ldf x => exact Laws.TableRow.ldf x
  | ldb x => exact Laws.TableRow.ldb x
  | stm x => exact Laws.TableRow.stm x
  | ldm x => exact Laws.TableRow.ldm x

theorem OpcodeRow.selects_iff {r : OpcodeRow} {w : Word} : r.selects w = true ↔ w &&& r.mask = r.value :=
  beq_iff_eq

/-- The row of an instruction selects every word that decodes to it, not only the canonical one. -/
theorem rowOf_selects {w : Word} {i : Instr} (h : decodeWord w = .ok i) : (rowOf i).selects w = true := by
  have hexamined := (decodesTo_of_decodeWord h).examinedBits_eq
  have hcanonical := OpcodeRow.selects_iff.mp (tableRow i).2
  rw [OpcodeRow.selects_iff]
  calc w &&& (rowOf i).mask
      = (w &&& examinedBits i) &&& (rowOf i).mask := by rw [BitVec.and_assoc, examinedBits_and_rowOf_mask]
    _ = (encode i &&& examinedBits i) &&& (rowOf i).mask := by rw [hexamined]
    _ = encode i &&& (rowOf i).mask := by rw [BitVec.and_assoc, examinedBits_and_rowOf_mask]
    _ = (rowOf i).value := hcanonical

/-- Two rows that differ in a bit both examine. -/
abbrev OpcodeRow.Disjoint (r r' : OpcodeRow) : Prop := r.value &&& r'.mask ≠ r'.value &&& r.mask

theorem OpcodeRow.disjoint_symm : Std.Symm OpcodeRow.Disjoint := ⟨fun _ _ h => h.symm⟩

theorem OpcodeRow.Disjoint.not_selects {r r' : OpcodeRow} (hd : r.Disjoint r') {w : Word} (h : r.selects w = true) :
    r'.selects w ≠ true := by
  intro h'
  rw [OpcodeRow.Disjoint, ← OpcodeRow.selects_iff.mp h, ← OpcodeRow.selects_iff.mp h', BitVec.and_assoc,
    BitVec.and_assoc, BitVec.and_comm r.mask] at hd
  exact hd rfl

/-- The rows of the opcode map are pairwise disjoint (R80). -/
theorem opcodeTable_disjoint : opcodeTable.Pairwise OpcodeRow.Disjoint := by decide

/-- No two rows select the same word. -/
theorem eq_of_selects {r r' : OpcodeRow} (hr : r ∈ opcodeTable) (hr' : r' ∈ opcodeTable) {w : Word}
    (h : r.selects w = true) (h' : r'.selects w = true) : r = r' := by
  by_contra hne
  have := OpcodeRow.disjoint_symm
  exact (opcodeTable_disjoint.forall hr hr' hne).not_selects h h'

/-! ### The words a row selects decode -/

theorem fieldF_and (w m : Word) : fieldF (w &&& m) = fieldF w &&& fieldF m := BitVec.extractLsb'_and

theorem fieldN_and (w m : Word) : fieldN (w &&& m) = fieldN w &&& fieldN m := BitVec.extractLsb'_and

theorem fieldKK_and (w m : Word) : fieldKK (w &&& m) = fieldKK w &&& fieldKK m := BitVec.extractLsb'_and

theorem family_of_selects {r : OpcodeRow} {w : Word} (h : r.selects w = true) (hm : fieldF r.mask = 0xF) :
    w.toNat / 4096 = r.value.toNat / 4096 := by
  rw [← fieldF_toNat, ← fieldF_toNat, ← OpcodeRow.selects_iff.mp h, fieldF_and, hm]
  exact congrArg _ (nibble_and_ones _).symm

theorem nibble_of_selects {r : OpcodeRow} {w : Word} (h : r.selects w = true) (hm : fieldN r.mask = 0xF) :
    w.toNat % 16 = r.value.toNat % 16 := by
  rw [← fieldN_toNat, ← fieldN_toNat, ← OpcodeRow.selects_iff.mp h, fieldN_and, hm]
  exact congrArg _ (nibble_and_ones _).symm

theorem byte_of_selects {r : OpcodeRow} {w : Word} (h : r.selects w = true) (hm : fieldKK r.mask = 0xFF) :
    w.toNat % 256 = r.value.toNat % 256 := by
  rw [← fieldKK_toNat, ← fieldKK_toNat, ← OpcodeRow.selects_iff.mp h, fieldKK_and, hm]
  exact congrArg _ (byte_and_ones _).symm

section
variable {r : OpcodeRow} {w : Word} (h : r.selects w = true)
include h

theorem exists_decodeWord_of_rowsLow (hr : r ∈ opcodeRowsLow) : ∃ i, decodeWord w = .ok i := by
  have hf := family_of_selects h
  have hn := nibble_of_selects h
  fin_cases hr
  · simp [decodeWord, decodeFamily0, fieldF_toNat, fieldN_toNat, hf rfl, hn rfl]
  · simp [decodeWord, decodeFamily0, fieldF_toNat, fieldN_toNat, hf rfl, hn rfl]
  all_goals simp [decodeWord, fieldF_toNat, hf rfl]

theorem exists_decodeWord_of_rowsArith (hr : r ∈ opcodeRowsArith) : ∃ i, decodeWord w = .ok i := by
  have hf := family_of_selects h
  have hn := nibble_of_selects h
  fin_cases hr <;> simp [decodeWord, decodeFamily8, fieldF_toNat, fieldN_toNat, hf rfl, hn rfl]

theorem exists_decodeWord_of_rowsHigh (hr : r ∈ opcodeRowsHigh) : ∃ i, decodeWord w = .ok i := by
  have hf := family_of_selects h
  have hkk := byte_of_selects h
  fin_cases hr
  rotate_right 2
  · simp [decodeWord, decodeFamilyE, fieldF_toNat, fieldKK_toNat, hf rfl, hkk rfl]
  · simp [decodeWord, decodeFamilyE, fieldF_toNat, fieldKK_toNat, hf rfl, hkk rfl]
  all_goals simp [decodeWord, fieldF_toNat, hf rfl]

theorem exists_decodeWord_of_rowsMisc (hr : r ∈ opcodeRowsMisc) : ∃ i, decodeWord w = .ok i := by
  have hf := family_of_selects h
  have hkk := byte_of_selects h
  fin_cases hr <;> simp [decodeWord, decodeFamilyF, fieldF_toNat, fieldKK_toNat, hf rfl, hkk rfl]

theorem exists_decodeWord_of_selects (hr : r ∈ opcodeTable) : ∃ i, decodeWord w = .ok i := by
  rcases List.mem_append.mp hr with hr | hr
  · rcases List.mem_append.mp hr with hr | hr
    · rcases List.mem_append.mp hr with hr | hr
      · exact exists_decodeWord_of_rowsLow h hr
      · exact exists_decodeWord_of_rowsArith h hr
    · exact exists_decodeWord_of_rowsHigh h hr
  · exact exists_decodeWord_of_rowsMisc h hr

end

/-- Settles O3: the row of the decoded instruction selects the word, no other row does, and a selected word decodes. -/
theorem decodeAgreesWithTheOpcodeMap : Obligations.DecodeAgreesWithTheOpcodeMap := by
  intro w
  refine ⟨⟨fun hwf => ?_, fun ⟨i, hi⟩ => ?_⟩, fun i hi r hr => ⟨fun hsel => ?_, ?_⟩⟩
  · obtain ⟨r, hr, hsel⟩ := List.any_eq_true.mp hwf
    exact exists_decodeWord_of_selects hsel hr
  · exact List.any_eq_true.mpr ⟨rowOf i, (tableRow i).1, rowOf_selects hi⟩
  · exact eq_of_selects hr (tableRow i).1 hsel (rowOf_selects hi)
  · rintro rfl
    exact rowOf_selects hi

/-! ### The unrecognized words -/

theorem decodeFamily0_error_iff (w : Word) :
    decodeFamily0 w = .error (.unrecognized w) ↔ w.toNat % 16 ≠ 0x0 ∧ w.toNat % 16 ≠ 0xE := by
  rw [← fieldN_toNat]
  unfold decodeFamily0
  split
  case h_3 h0 hE => exact iff_of_true rfl ⟨h0, hE⟩
  all_goals next hn => simp [hn]

theorem decodeFamily8_error_iff (w : Word) :
    decodeFamily8 w = .error (.unrecognized w) ↔ w.toNat % 16 ∈ [0x8, 0x9, 0xA, 0xB, 0xC, 0xD, 0xF] := by
  rw [← fieldN_toNat]
  have := (fieldN w).isLt
  unfold decodeFamily8
  split
  case h_10 =>
    simp only [List.mem_cons, List.not_mem_nil, or_false, true_iff, imp_false] at *
    omega
  all_goals next hn => simp [hn]

theorem decodeFamilyE_error_iff (w : Word) :
    decodeFamilyE w = .error (.unrecognized w) ↔ w.toNat % 256 ≠ 0x9E ∧ w.toNat % 256 ≠ 0xA1 := by
  rw [← fieldKK_toNat]
  unfold decodeFamilyE
  split
  case h_3 h9E hA1 => exact iff_of_true rfl ⟨h9E, hA1⟩
  all_goals next hkk => simp [hkk]

theorem decodeFamilyF_error_iff (w : Word) :
    decodeFamilyF w = .error (.unrecognized w) ↔
      w.toNat % 256 ∉ [0x07, 0x0A, 0x15, 0x18, 0x1E, 0x29, 0x33, 0x55, 0x65] := by
  rw [← fieldKK_toNat]
  unfold decodeFamilyF
  split
  case h_10 =>
    simp only [List.mem_cons, List.not_mem_nil, or_false, true_iff, imp_false] at *
    omega
  all_goals next hkk => simp [hkk]

/-- Settles O4, family by family: the families 0, 8, E and F reject by their sub-codes, and no other family rejects. -/
theorem unrecognizedWordsAreThoseOfTheList : Obligations.UnrecognizedWordsAreThoseOfTheList := by
  intro w
  rw [← decodeFamily0_error_iff, ← decodeFamily8_error_iff, ← decodeFamilyE_error_iff, ← decodeFamilyF_error_iff,
    ← fieldF_toNat]
  have := (fieldF w).isLt
  unfold decodeWord
  split
  case h_17 =>
    simp only [imp_false] at *
    omega
  all_goals next hf => simp [hf]

/-- Settles O5: each word is written out, and the decoder is evaluated on it. -/
theorem writtenWordsDecode : Obligations.WrittenWordsDecode := by
  unfold Obligations.WrittenWordsDecode
  decide

end Sys2Proof
end

section
/-! SUPPORT. What each instruction may write, said once: the frames of the shared operations, composed along the arms of
the dispatch (10_state.md R20 to R32; 60_exceptions.md R236). -/
namespace Sys2Proof.Machine

/-! ### Frames compose -/

theorem Frame.refl (e : Effects) (s : State) : Frame e s s := by
  constructor <;> intros <;> rfl

theorem Frame.trans {e : Effects} {s t u : State} (hst : Frame e s t) (htu : Frame e t u) : Frame e s u where
  regs r hr := (htu.regs r hr).trans (hst.regs r hr)
  bytes a ha := (htu.bytes a ha).trans (hst.bytes a ha)
  index h := (htu.index h).trans (hst.index h)
  pc h := (htu.pc h).trans (hst.pc h)
  sp h := (htu.sp h).trans (hst.sp h)
  slots h := (htu.slots h).trans (hst.slots h)
  dt h := (htu.dt h).trans (hst.dt h)
  st h := (htu.st h).trans (hst.st h)
  display h := (htu.display h).trans (hst.display h)
  halted h := (htu.halted h).trans (hst.halted h)
  diags h := (htu.diags h).trans (hst.diags h)
  rnd h := (htu.rnd h).trans (hst.rnd h)
  keys := htu.keys.trans hst.keys
  beep := htu.beep.trans hst.beep
  subnUnderflow := htu.subnUnderflow.trans hst.subnUnderflow

section
variable {e : Effects} (s : State)

/-! ### The frames of single updates -/

theorem State.setPc_frame (hpc : e.pc = true) (w : Word) : Frame e s (s.setPc w) := by
  constructor <;> simp [hpc]

theorem State.nextRnd_frame (hrnd : e.rnd = true) : Frame e s s.nextRnd := by
  constructor <;> simp [hrnd]

theorem raiseFault_frame (hhalted : e.halted = true) (c : HaltCause) : Frame e s (raiseFault c s) := by
  constructor <;> simp [hhalted]

theorem State.withDiags_frame (hdiags : e.diags = true) (ds : List Diag) : Frame e s { s with diags := ds } := by
  constructor <;> simp [hdiags, State.readV, State.byteAt]

theorem State.withStack_frame (hpc : e.pc = true) (hstack : e.stack = true) (k : Vector Word 16) (n : Fin 17) (w : Word) :
    Frame e s { s with stack := k, sp := n, pc := w } := by
  constructor <;> simp [hpc, hstack, State.readV, State.byteAt]

theorem State.withRegs_frame {v : Vector Byte 16} (hv : ∀ r, r ∉ e.regs → v[r] = s.readV r) :
    Frame e s { s with v := v } := by
  constructor
  case regs => exact hv
  all_goals intros; rfl

theorem State.withMem_frame {m : Memory} {ds : List Diag} (hm : ∀ a, a ∉ e.bytes → Memory.read m a = s.byteAt a)
    (hds : e.diags = false → ds = s.diags) : Frame e s { s with mem := m, diags := ds } := by
  constructor
  case bytes => exact hm
  case diags => exact hds
  all_goals intros; rfl

/-! ### The frames of the shared operations -/

theorem State.skipIf_frame (hpc : e.pc = true) (c : Bool) : Frame e s (s.skipIf c) := by
  cases c with
  | true => exact s.setPc_frame hpc _
  | false => exact .refl e s

theorem skipOnKey_frame (hpc : e.pc = true) (hdiags : e.diags = true) (wanted : Bool) (k : Byte) :
    Frame e s (skipOnKey wanted k s) := by
  obtain ⟨-, h⟩ | ⟨-, h⟩ := skipOnKey_cases wanted k s
  · exact h ▸ s.withDiags_frame hdiags _
  · exact h ▸ s.skipIf_frame hpc _

theorem keyWait_frame {x : Reg} (hx : x ∈ e.regs) (hpc : e.pc = true) : Frame e s (keyWait x s) := by
  obtain ⟨_, -, h⟩ | ⟨-, h⟩ := keyWait_cases x s
  · exact h ▸ s.writeV_frame hx _
  · exact h ▸ s.setPc_frame hpc _

theorem callTo_frame (hpc : e.pc = true) (hstack : e.stack = true) (hhalted : e.halted = true) (w : Word) :
    Frame e s (callTo w s) := by
  obtain ⟨_, h⟩ | ⟨-, h⟩ := callTo_cases w s
  · exact h ▸ s.withStack_frame hpc hstack _ _ _
  · exact h ▸ raiseFault_frame s hhalted _

theorem returnFromCall_frame (hpc : e.pc = true) (hstack : e.stack = true) (hhalted : e.halted = true) :
    Frame e s (returnFromCall s) := by
  obtain ⟨_, h⟩ | ⟨-, h⟩ := returnFromCall_cases s
  · exact h ▸ s.withStack_frame hpc hstack _ _ _
  · exact h ▸ raiseFault_frame s hhalted _

theorem flagThenResult_frame (flag result : Byte → Byte → Byte) {x : Reg} (hx : x ∈ e.regs) (hvf : vf ∈ e.regs)
    (y : Reg) : Frame e s (flagThenResult flag result x y s) :=
  flagThenResult_eq flag result x y s ▸ (s.writeV_frame hvf _).trans (State.writeV_frame _ hx _)

/-- SUBN writes like the other flag writers, and `halted` only where its policy is `fault`. -/
theorem subnWith_frame {policy : Config.SubnUnderflow} (hhalted : policy = .fault → e.halted = true) {x : Reg}
    (hx : x ∈ e.regs) (hvf : vf ∈ e.regs) (y : Reg) : Frame e s (subnWith policy x y s) := by
  obtain ⟨-, h⟩ | ⟨hpolicy, -, h⟩ := subnWith_cases policy x y s
  · exact h ▸ flagThenResult_frame s _ _ hx hvf y
  · exact h ▸ (s.writeV_frame hvf _).trans (raiseFault_frame _ (hhalted hpolicy) _)

theorem drawSprite_frame (hvf : vf ∈ e.regs) (hdisplay : e.display = true) (hdiags : e.diags = true) (vx vy : Byte)
    (n : Nibble) : Frame e s (drawSprite vx vy n s) :=
  drawSprite_eq vx vy n s ▸
    ((s.writeV_frame hvf _).trans (State.withDisplay_frame _ hdisplay _)).trans (State.withDiags_frame _ hdiags _)

/-! ### The frames of the memory transfers (43_index_memory.md R173 to R175) -/

/-- Writing a byte per register, at I + r for register r, leaves every other address alone, in any memory. -/
theorem read_foldl_write_ne (g : Reg → Byte) {rs : List Reg} {a : Nat} (ha : ∀ r ∈ rs, s.effAddr r.val ≠ a)
    (m : Memory) : Memory.read (rs.foldl (fun m r => Memory.write (s.effAddr r.val) (g r) m) m) a = Memory.read m a := by
  induction rs generalizing m with
  | nil => rfl
  | cons r rs ih =>
    rw [List.foldl_cons, ih fun q hq => ha q (List.mem_cons_of_mem r hq),
      Memory.read_write_ne (ha r List.mem_cons_self).symm]

theorem storeBcd_frame (hbytes : ∀ k < 3, s.effAddr k ∈ e.bytes) (hdiags : e.diags = true) (b : Byte) :
    Frame e s (storeBcd b s) := by
  rw [storeBcd_eq]
  refine s.withMem_frame (fun a ha => ?_) (fun h => absurd (h.symm.trans hdiags) Bool.false_ne_true)
  have hne : ∀ k < 3, a ≠ s.effAddr k := fun k hk h => ha (h ▸ hbytes k hk)
  rw [Memory.read_write_ne (hne 2 (by decide)), Memory.read_write_ne (hne 1 (by decide)),
    Memory.read_write_ne (hne 0 (by decide))]
  rfl

theorem foldl_storeReg_frame {rs : List Reg} (hbytes : ∀ r ∈ rs, s.effAddr r.val ∈ e.bytes) (hdiags : e.diags = true) :
    Frame e s (rs.foldl storeReg s) := by
  rw [foldl_storeReg_eq]
  refine s.withMem_frame (fun a ha => ?_) (fun h => absurd (h.symm.trans hdiags) Bool.false_ne_true)
  have hne : ∀ r ∈ rs, s.effAddr r.val ≠ a := fun r hr h => ha (h ▸ hbytes r hr)
  exact read_foldl_write_ne s s.readV hne s.mem

theorem foldl_loadReg_frame {rs : List Reg} (hnodup : rs.Nodup) (hregs : ∀ r ∈ rs, r ∈ e.regs) (hdiags : e.diags = true) :
    Frame e s (rs.foldl loadReg s) := by
  rw [foldl_loadReg_eq]
  refine (s.withRegs_frame fun r hr => ?_).trans (State.withDiags_frame _ hdiags _)
  rw [foldl_set_spec hnodup fun r b => (s.byteAt (s.effAddr r.val)).getD b, if_neg fun h => hr (hregs r h)]
  rfl

end

/-! ### The frame of every instruction -/

/-- What an instruction may write when it is executed from `s`. -/
def State.effectsOf (s : State) : Instr → Effects
  | .cls => { display := true }
  | .ret | .call _ => { pc := true, stack := true, halted := true }
  | .jp _ | .jpv0 _ | .sei _ _ | .snei _ _ | .ser _ _ | .sner _ _ => { pc := true }
  | .ldi x _ | .addi x _ | .ldr x _ | .or x _ | .and x _ | .xor x _ | .ldvdt x => { regs := [x] }
  | .add x _ | .sub x _ | .shr x _ | .shl x _ => { regs := [x, vf] }
  | .subn x _ => { regs := [x, vf], halted := s.subnUnderflow = .fault }
  | .ldidx _ | .addidx _ | .ldf _ => { index := true }
  | .rnd x _ => { regs := [x], rnd := true }
  | .drw _ _ _ => { regs := [vf], display := true, diags := true }
  | .skp _ | .sknp _ => { pc := true, diags := true }
  | .ldvk x => { regs := [x], pc := true }
  | .lddtv _ => { dt := true }
  | .ldstv _ => { st := true }
  | .ldb _ => { bytes := [0, 1, 2].map s.effAddr, diags := true }
  | .stm x => { bytes := (List.range (x.val + 1)).map s.effAddr, diags := true }
  | .ldm x => { regs := (List.finRange 16).filter (· ≤ x), diags := true }

theorem State.effectsOf_regs (s : State) (i : Instr) : (s.effectsOf i).regs = writtenRegs i := by
  cases i <;> rfl

theorem exec_stm (x : Reg) (s : State) : exec (.stm x) s = .next ((regsUpTo x).foldl storeReg s) := rfl

/-- The addresses of LD [I],Vx are those of the registers V0..Vx. -/
theorem effAddr_mem_of_mem_regsUpTo (s : State) {x r : Reg} (hr : r ∈ regsUpTo x) :
    s.effAddr r.val ∈ (List.range (x.val + 1)).map s.effAddr := by
  rw [← regsUpTo_map_val]
  exact List.mem_map_of_mem (List.mem_map_of_mem hr)

theorem mem_filter_of_mem_regsUpTo {x r : Reg} (hr : r ∈ regsUpTo x) : r ∈ (List.finRange 16).filter (· ≤ x) := by
  simpa using (mem_regsUpTo x r).mp hr

/-- Every instruction answers a next state, and writes nothing but its effects. -/
theorem exists_exec_frame (i : Instr) (s : State) : ∃ t, exec i s = .next t ∧ Frame (s.effectsOf i) s t := by
  cases i with
  | cls => exact ⟨_, rfl, s.withDisplay_frame rfl _⟩
  | ret => exact ⟨_, rfl, returnFromCall_frame s rfl rfl rfl⟩
  | call nnn => exact ⟨_, rfl, callTo_frame s rfl rfl rfl _⟩
  | jp nnn | jpv0 nnn => exact ⟨_, rfl, s.setPc_frame rfl _⟩
  | sei | snei | ser | sner => exact ⟨_, rfl, s.skipIf_frame rfl _⟩
  | ldi | addi | ldr | or | and | xor | ldvdt => exact ⟨_, rfl, s.writeV_frame List.mem_cons_self _⟩
  | add | sub | shr | shl =>
    exact ⟨_, rfl, flagThenResult_frame s _ _ List.mem_cons_self (List.mem_cons_of_mem _ List.mem_cons_self) _⟩
  | subn x y =>
    exact ⟨_, rfl, subnWith_frame s decide_eq_true List.mem_cons_self (List.mem_cons_of_mem _ List.mem_cons_self) y⟩
  | ldidx | addidx | ldf => exact ⟨_, rfl, s.setIndex_frame rfl _⟩
  | rnd x kk => exact ⟨_, rfl, (s.nextRnd_frame rfl).trans (State.writeV_frame _ List.mem_cons_self _)⟩
  | drw x y n => exact ⟨_, rfl, drawSprite_frame s List.mem_cons_self rfl rfl _ _ n⟩
  | skp | sknp => exact ⟨_, rfl, skipOnKey_frame s rfl rfl _ _⟩
  | ldvk x => exact ⟨_, rfl, keyWait_frame s List.mem_cons_self rfl⟩
  | lddtv x => exact ⟨_, rfl, s.withTimers_frame nofun fun _ => rfl⟩
  | ldstv x => exact ⟨_, rfl, s.withTimers_frame (fun _ => rfl) nofun⟩
  | ldb x => exact ⟨_, rfl, storeBcd_frame s (fun k hk => List.mem_map_of_mem (by simpa using by omega)) rfl _⟩
  | stm x => exact ⟨_, rfl, foldl_storeReg_frame s (fun r hr => effAddr_mem_of_mem_regsUpTo s hr) rfl⟩
  | ldm x => exact ⟨_, rfl, foldl_loadReg_frame s (nodup_regsUpTo x) (fun r hr => mem_filter_of_mem_regsUpTo hr) rfl⟩

/-- What holds of some next state of a result holds of the one it is known to be. -/
theorem of_exists_next {res : Result} {t : State} (h : res = .next t) {P : State → Prop}
    (hP : ∃ t', res = .next t' ∧ P t') : P t := by
  obtain ⟨t', hres, ht'⟩ := hP
  exact Host.Outcome.next.inj (hres.symm.trans h) ▸ ht'

theorem exec_frame {i : Instr} {s t : State} (h : exec i s = .next t) : Frame (s.effectsOf i) s t :=
  of_exists_next h (exists_exec_frame i s)

end Sys2Proof.Machine
end

section
/-! SUPPORT. What the execute phase can do to memory, pc, the stack and `halted`, from the frame of every instruction, and
the invariant of every step that follows (60_exceptions.md R236 to R239; 10_state.md R23; 41_flow.md R121). -/
namespace Sys2Proof.Machine

/-! ### Memory in the execute phase -/

theorem skipIf_mem (c : Bool) (s : State) : (s.skipIf c).mem = s.mem := by
  cases c <;> rfl

theorem skipOnKey_mem (wanted : Bool) (k : Byte) (s : State) : (skipOnKey wanted k s).mem = s.mem := by
  obtain ⟨-, h⟩ | ⟨-, h⟩ := skipOnKey_cases wanted k s
  · rw [h]
  · rw [h, skipIf_mem]

theorem keyWait_mem (x : Reg) (s : State) : (keyWait x s).mem = s.mem := by
  obtain ⟨_, -, h⟩ | ⟨-, h⟩ := keyWait_cases x s <;> rw [h]
  exact s.writeV_mem x _

theorem callTo_mem (w : Word) (s : State) : (callTo w s).mem = s.mem := by
  obtain ⟨_, h⟩ | ⟨-, h⟩ := callTo_cases w s <;> rw [h]

theorem returnFromCall_mem (s : State) : (returnFromCall s).mem = s.mem := by
  obtain ⟨_, h⟩ | ⟨-, h⟩ := returnFromCall_cases s <;> rw [h]

theorem subnWith_mem (policy : Config.SubnUnderflow) (x y : Reg) (s : State) : (subnWith policy x y s).mem = s.mem := by
  obtain ⟨-, h⟩ | ⟨-, -, h⟩ := subnWith_cases policy x y s <;> rw [h] <;> rfl

/-- Only LD B and LD [I] change memory (20_memory.md R58). -/
theorem exec_mem {i : Instr} {s t : State} (h : exec i s = .next t) (hldb : ∀ x, i ≠ .ldb x) (hstm : ∀ x, i ≠ .stm x) :
    t.mem = s.mem := by
  refine of_exists_next h (P := fun t => t.mem = s.mem) ?_
  cases i with
  | ldb x => exact absurd rfl (hldb x)
  | stm x => exact absurd rfl (hstm x)
  | ret => exact ⟨_, rfl, returnFromCall_mem s⟩
  | call nnn => exact ⟨_, rfl, callTo_mem _ s⟩
  | sei | snei | ser | sner => exact ⟨_, rfl, skipIf_mem _ s⟩
  | skp | sknp => exact ⟨_, rfl, skipOnKey_mem _ _ s⟩
  | subn x y => exact ⟨_, rfl, subnWith_mem _ x y s⟩
  | ldvk x => exact ⟨_, rfl, keyWait_mem x s⟩
  | drw x y n => exact ⟨_, rfl, by rw [drawSprite_eq]⟩
  | ldm x => exact ⟨_, rfl, by rw [foldl_loadReg_eq]⟩
  | _ => exact ⟨_, rfl, rfl⟩

theorem wf_storeBcd {s : State} (hwf : Memory.wf s.mem) (b : Byte) : Memory.wf (storeBcd b s).mem := by
  rw [storeBcd_eq]
  exact Memory.wf_write (Memory.wf_write (Memory.wf_write hwf _ _) _ _) _ _

theorem wf_foldl_storeReg {s : State} (hwf : Memory.wf s.mem) (x : Reg) :
    Memory.wf ((regsUpTo x).foldl storeReg s).mem := by
  rw [foldl_storeReg_eq]
  exact (foldl_write_spec (nodup_regsUpTo x) s s.readV hwf).1

/-- The execute phase keeps the canonical form. -/
theorem exec_wf {i : Instr} {s t : State} (h : exec i s = .next t) (hwf : Memory.wf s.mem) : Memory.wf t.mem := by
  cases i with
  | ldb x => exact Host.Outcome.next.inj h ▸ wf_storeBcd hwf _
  | stm x => exact Host.Outcome.next.inj h ▸ wf_foldl_storeReg hwf x
  | _ => exact exec_mem h nofun nofun ▸ hwf

/-! ### The hard faults of the execute phase -/

/-- The instruction raises the hard fault when it is executed from `s` (R237, R239). -/
inductive State.Raises (s : State) : Instr → HaltCause → Prop where
  | overflow (nnn : Addr12) (hsp : s.sp.val = 16) : s.Raises (.call nnn) .stackOverflow
  | underflow (hsp : s.sp.val = 0) : s.Raises .ret .stackUnderflow
  | subn (x y : Reg) (hpolicy : s.subnUnderflow = .fault) (hbelow : s.SubnBelowZero x y) :
      s.Raises (.subn x y) .subnUnderflow

/-- `halted` changes in the execute phase only by raising a fault. -/
theorem exec_halted_cases {i : Instr} {s t : State} (h : exec i s = .next t) :
    t.halted = s.halted ∨ ∃ c, s.Raises i c ∧ t.halted = some c := by
  cases i with
  | call nnn =>
    obtain rfl : callTo (zext16 nnn) s = t := Host.Outcome.next.inj h
    obtain ⟨_, hcall⟩ | ⟨hsp, hcall⟩ := callTo_cases (zext16 nnn) s
    · exact .inl (by rw [hcall])
    · exact .inr ⟨_, .overflow nnn hsp, by rw [hcall]⟩
  | ret =>
    obtain rfl : returnFromCall s = t := Host.Outcome.next.inj h
    obtain ⟨_, hret⟩ | ⟨hsp, hret⟩ := returnFromCall_cases s
    · exact .inl (by rw [hret])
    · exact .inr ⟨_, .underflow hsp, by rw [hret]⟩
  | subn x y =>
    obtain rfl : subnWith s.subnUnderflow x y s = t := Host.Outcome.next.inj h
    obtain ⟨-, hsubn⟩ | ⟨hpolicy, hbelow, hsubn⟩ := subnWith_cases s.subnUnderflow x y s
    · exact .inl (by rw [hsubn]; rfl)
    · exact .inr ⟨_, .subn x y hpolicy hbelow, by rw [hsubn]⟩
  | _ => exact .inl ((exec_frame h).halted rfl)

/-! ### pc and the stack in the execute phase -/

/-- pc and every return address are at most 0x1000, as they are when the execute phase starts after a fetch. -/
structure State.AddrsBounded (s : State) : Prop where
  pc : s.pc.toNat ≤ 0x1000
  slots : ∀ k : Fin 16, s.stack[k].toNat ≤ 0x1000

theorem toNat_zext16_le (nnn : Addr12) : (zext16 nnn).toNat ≤ 0xFFF := by
  have := nnn.isLt
  rw [toNat_zext16]
  omega

theorem toNat_jpv0_target (nnn : Addr12) (b : Byte) :
    (zext16 nnn + b.zeroExtend 16).toNat = nnn.toNat + b.toNat := by
  have := nnn.isLt
  have := b.isLt
  rw [BitVec.toNat_add, toNat_zext16, BitVec.toNat_setWidth_of_le (by decide), Nat.mod_eq_of_lt (by omega)]

theorem skipIf_pc_le {s : State} (hs : s.pc.toNat ≤ 0x1000) (c : Bool) : (s.skipIf c).pc.toNat ≤ 0x10FE := by
  cases c with
  | false => exact hs.trans (by decide)
  | true =>
    have htwo : (2 : Word).toNat = 2 := rfl
    rw [State.skipIf_true, State.setPc_pc, BitVec.toNat_add, htwo]
    omega

/-- From bounded addresses an instruction answers a pc of at most 0xFFF + 0xFF (R23). -/
theorem exec_pc_le {i : Instr} {s t : State} (h : exec i s = .next t) (hs : s.AddrsBounded) (htwo : 2 ≤ s.pc.toNat) :
    t.pc.toNat ≤ 0x10FE := by
  have hpc : s.pc.toNat ≤ 0x10FE := hs.pc.trans (by decide)
  cases i with
  | jp nnn => exact Host.Outcome.next.inj h ▸ (toNat_zext16_le nnn).trans (by decide)
  | jpv0 nnn =>
    have hsum := toNat_jpv0_target nnn (s.readV 0)
    have := nnn.isLt
    have := (s.readV 0).isLt
    exact Host.Outcome.next.inj h ▸ hsum.trans_le (by omega)
  | call nnn =>
    obtain rfl : callTo (zext16 nnn) s = t := Host.Outcome.next.inj h
    obtain ⟨_, hcall⟩ | ⟨-, hcall⟩ := callTo_cases (zext16 nnn) s <;> rw [hcall]
    · exact (toNat_zext16_le nnn).trans (by decide)
    · exact hpc
  | ret =>
    obtain rfl : returnFromCall s = t := Host.Outcome.next.inj h
    obtain ⟨hsp, hret⟩ | ⟨-, hret⟩ := returnFromCall_cases s <;> rw [hret]
    · exact (hs.slots ⟨s.sp.val - 1, by omega⟩).trans (by decide)
    · exact hpc
  | sei | snei | ser | sner => exact Host.Outcome.next.inj h ▸ skipIf_pc_le hs.pc _
  | skp x | sknp x =>
    obtain rfl := Host.Outcome.next.inj h
    obtain ⟨-, hskip⟩ | ⟨-, hskip⟩ := skipOnKey_cases _ (s.readV x) s <;> rw [hskip]
    · exact hpc
    · exact skipIf_pc_le hs.pc _
  | ldvk x =>
    obtain rfl : keyWait x s = t := Host.Outcome.next.inj h
    obtain ⟨_, -, hwait⟩ | ⟨-, hwait⟩ := keyWait_cases x s <;> rw [hwait]
    · exact hpc
    · have hle : (2 : Word) ≤ s.pc := BitVec.le_def.mpr htwo
      exact (BitVec.toNat_sub_of_le hle).trans_le ((Nat.sub_le ..).trans hpc)
  | _ => exact ((exec_frame h).pc rfl).symm ▸ hpc

/-- The slots an instruction leaves hold return addresses: those they held, or the pc a CALL pushed (R121). -/
theorem exec_slots_le {i : Instr} {s t : State} (h : exec i s = .next t) (hs : s.AddrsBounded) (k : Fin 16) :
    t.stack[k].toNat ≤ 0x1000 := by
  cases i with
  | call nnn =>
    obtain rfl : callTo (zext16 nnn) s = t := Host.Outcome.next.inj h
    obtain ⟨_, hcall⟩ | ⟨-, hcall⟩ := callTo_cases (zext16 nnn) s <;> rw [hcall]
    · show ((s.stack.set s.sp.val s.pc)[k.val]).toNat ≤ 0x1000
      rw [Vector.getElem_set]
      split
      · exact hs.pc
      · exact hs.slots k
    · exact hs.slots k
  | ret =>
    obtain rfl : returnFromCall s = t := Host.Outcome.next.inj h
    obtain ⟨_, hret⟩ | ⟨-, hret⟩ := returnFromCall_cases s <;> exact hret ▸ hs.slots k
  | _ => exact ((exec_frame h).slots rfl).symm ▸ hs.slots k

/-! ### The invariant of every step -/

/-- The cause of a halted state agrees with pc, SP and SUBN_UNDERFLOW (R237 to R239). -/
structure State.CauseAgrees (s : State) (c : HaltCause) : Prop where
  fetchFault : c = .fetchOutOfRange → 0xFFF ≤ s.pc.toNat
  overflow : c = .stackOverflow → s.sp.val = 16
  underflow : c = .stackUnderflow → s.sp.val = 0
  subn : c = .subnUnderflow → s.subnUnderflow = .fault

theorem State.Raises.causeAgrees {s : State} {i : Instr} {c : HaltCause} (h : s.preStep.Raises i c) : s.CauseAgrees c := by
  cases h with
  | overflow nnn hsp => exact ⟨nofun, fun _ => hsp, nofun, nofun⟩
  | underflow hsp => exact ⟨nofun, nofun, fun _ => hsp, nofun⟩
  | subn x y hpolicy hbelow => exact ⟨nofun, nofun, nofun, fun _ => hpolicy⟩

theorem clearOutputs_inv {s : State} (hs : s.Inv) : s.clearOutputs.Inv :=
  ⟨hs.mem, hs.pc, hs.slots, hs.fetchFault, hs.overflow, hs.underflow, hs.subn⟩

theorem abortStep_inv {s : State} {c : HaltCause} (hs : s.Inv) (hc : s.CauseAgrees c) : (abortStep c s).Inv where
  mem := hs.mem
  pc := hs.pc
  slots := hs.slots
  fetchFault h := hc.fetchFault (Option.some.inj h)
  overflow h := hc.overflow (Option.some.inj h)
  underflow h := hc.underflow (Option.some.inj h)
  subn h := hc.subn (Option.some.inj h)

/-- A running state has no cause to agree with anything. -/
theorem timerTick_inv {t : State} (hrunning : t.halted = none) (hmem : Memory.wf t.mem) (hpc : t.pc.toNat ≤ 0x10FE)
    (hslots : ∀ k : Fin 16, t.stack[k].toNat ≤ 0x1000) : (timerTick t).Inv where
  mem := hmem
  pc := hpc
  slots := hslots
  fetchFault h := nomatch hrunning.symm.trans h
  overflow h := nomatch hrunning.symm.trans h
  underflow h := nomatch hrunning.symm.trans h
  subn h := nomatch hrunning.symm.trans h

/-- After a fetch, pc + 2 is at most 0x1000 and does not wrap. -/
theorem preStep_pc_toNat {s : State} (hpc : s.pc.toNat ≤ 0xFFE) : s.preStep.pc.toNat = s.pc.toNat + 2 := by
  have htwo : (2 : Word).toNat = 2 := rfl
  rw [State.preStep_pc, BitVec.toNat_add, htwo]
  omega

theorem pc_le_of_fetch {s : State} {w : Word} (h : s.fetch = some w) : s.pc.toNat ≤ 0xFFE := by
  by_contra hlt
  exact nomatch h.symm.trans (s.fetch_eq_none_iff.mpr (by omega))

theorem preStep_addrsBounded {s : State} (hs : s.Inv) (hpc : s.pc.toNat ≤ 0xFFE) : s.preStep.AddrsBounded where
  pc := by rw [preStep_pc_toNat hpc]; omega
  slots := hs.slots

theorem finishStep_exec_inv {s t : State} {i : Instr} (hs : s.Inv) (hrunning : s.Running) (hpc : s.pc.toNat ≤ 0xFFE)
    (h : exec i s.preStep = .next t) : (finishStep s t).Inv := by
  obtain hhalted | ⟨c, hraises, hhalted⟩ := exec_halted_cases h
  · have ht : t.halted = none := hhalted.trans hrunning
    have hbounded := preStep_addrsBounded hs hpc
    have htwo : 2 ≤ s.preStep.pc.toNat := by rw [preStep_pc_toNat hpc]; omega
    rw [finishStep_of_running ht]
    exact timerTick_inv ht (exec_wf h hs.mem) (exec_pc_le h hbounded htwo) (exec_slots_le h hbounded)
  · rw [finishStep_of_halted hhalted]
    exact abortStep_inv hs hraises.causeAgrees

/-- An unrecognized word advances pc, to at most 0x1000. -/
theorem finishStep_unrecognized_inv {s : State} (w : Word) (hs : s.Inv) (hrunning : s.Running) (hpc : s.pc.toNat ≤ 0xFFE) :
    (finishStep s (s.preStep.emit (.unrecognized w))).Inv := by
  have hrunning' : (s.preStep.emit (.unrecognized w)).halted = none := hrunning
  rw [finishStep_of_running hrunning']
  exact timerTick_inv hrunning' hs.mem ((preStep_addrsBounded hs hpc).pc.trans (by decide)) hs.slots

/-- Settles O55, by what a step can do: stay halted, fault, pass over an unrecognized word, or execute an instruction. -/
theorem everyStepKeepsTheInvariant : Obligations.EveryStepKeepsTheInvariant := by
  intro s t hs hstep
  obtain ⟨c, -, hcycle⟩ | ⟨-, hpc, hcycle⟩ | ⟨hrunning, w, e, hfetch, -, hcycle⟩ | ⟨hrunning, w, i, hfetch, -, hcycle⟩ :=
    cycle_cases s
  · exact Host.Outcome.next.inj (hcycle.symm.trans hstep) ▸ clearOutputs_inv hs
  · exact Host.Outcome.next.inj (hcycle.symm.trans hstep) ▸ abortStep_inv hs ⟨fun _ => hpc, nofun, nofun, nofun⟩
  · have hpc := pc_le_of_fetch hfetch
    exact Host.Outcome.next.inj (hcycle.symm.trans hstep) ▸ finishStep_unrecognized_inv w hs hrunning hpc
  · obtain ⟨u, hexec, -⟩ := exists_exec_frame i s.preStep
    have hpc := pc_le_of_fetch hfetch
    rw [hexec] at hcycle
    exact Host.Outcome.next.inj (hcycle.symm.trans hstep) ▸ finishStep_exec_inv hs hrunning hpc hexec

end Sys2Proof.Machine
end

section
/-! SUPPORT. The whole step, from what it executes: completion, faults, the fixed points and the writers of each element
(40_cycle.md R100 to R111; 60_exceptions.md R236). -/
namespace Sys2Proof.Machine

/-! ### The fetch (20_memory.md R53, R56) -/

/-- Settles O6: both bytes are in memory exactly when pc + 1 is, and the first is the high one. -/
theorem fetchReadsTheBigEndianWord : Obligations.FetchReadsTheBigEndianWord := by
  intro s
  refine ⟨fun hpc => ?_, s.fetch_eq_none_iff.mpr⟩
  exact ⟨_, _, s.byteAt_of_lt (by omega), s.byteAt_of_lt (by omega), _, by rw [s.fetch_eq, if_pos hpc],
    wordOfBytes_toNat _ _⟩

/-! ### A step by its cases -/

/-- Settles O7: the tick and the undoing of a fault are what the end of a step does with the executed state. -/
theorem stepRunsTheDecodedInstruction : Obligations.StepRunsTheDecodedInstruction := by
  intro s i hruns
  obtain ⟨t, hexec, -⟩ := exists_exec_frame i s.preStep
  refine ⟨t, hexec, ?_⟩
  rw [step_of_runs hruns, hexec, finishResult]
  split
  · next c hhalted => rw [finishStep_of_halted hhalted]; rfl
  · next hhalted => rw [finishStep_of_running hhalted]; rfl

/-- Settles O8: the diagnostic is all the execute phase adds to the advance of pc, and the step then ticks. -/
theorem unrecognizedWordOnlyAdvancesPc : Obligations.UnrecognizedWordOnlyAdvancesPc := by
  intro s w e ⟨hrunning, hfetch⟩ hdecode
  have hstep : step s = .next (finishStep s (s.preStep.emit (.unrecognized w))) := by
    simp only [step, cycle, executeWord, hrunning, hfetch, hdecode, finishResult]
  have hrunning' : (s.preStep.emit (.unrecognized w)).halted = none := hrunning
  rw [hstep, finishStep_of_running hrunning']
  rfl

/-- Settles O9: where the fetch gives no word, the step aborts. -/
theorem fetchOutsideMemoryHalts : Obligations.FetchOutsideMemoryHalts := by
  intro s hrunning hpc
  have hfetch := s.fetch_eq_none_iff.mpr hpc
  simp only [step, cycle, hrunning, hfetch]
  rfl

theorem step_of_halted {s : State} {c : HaltCause} (h : s.halted = some c) : step s = .next s.clearOutputs := by
  simp only [step, cycle, h]

/-- Settles O10: a halted block only clears its outputs. -/
theorem haltedStepChangesNothing : Obligations.HaltedStepChangesNothing :=
  fun _s _c h => step_of_halted h

/-- An instruction whose execution raises a fault leaves the state before the step, with the cause. -/
theorem step_of_raised {s t : State} {i : Instr} {c : HaltCause} (hruns : s.Runs i) (hexec : exec i s.preStep = .next t)
    (hhalted : t.halted = some c) : step s = .next { s with halted := some c, beep := false, diags := [] } := by
  rw [step_of_runs hruns, hexec, finishResult, finishStep_of_halted hhalted]
  rfl

theorem exec_call_full {s : State} (hsp : s.sp.val = 16) (nnn : Addr12) :
    exec (.call nnn) s = .next { s with halted := some .stackOverflow } := by
  obtain ⟨hlt, -⟩ | ⟨-, hcall⟩ := callTo_cases (zext16 nnn) s
  · omega
  · exact congrArg _ hcall

theorem exec_ret_empty {s : State} (hsp : s.sp.val = 0) :
    exec .ret s = .next { s with halted := some .stackUnderflow } := by
  obtain ⟨hpos, -⟩ | ⟨-, hret⟩ := returnFromCall_cases s
  · omega
  · exact congrArg _ hret

/-- Settles O11: a full stack makes CALL raise its fault, an empty one makes RET raise its own, and the step is undone. -/
theorem stackFaultsHaltWithTheStateBefore : Obligations.StackFaultsHaltWithTheStateBefore := by
  intro s
  constructor
  · rintro ⟨nnn, hruns⟩ hsp
    exact step_of_raised hruns (exec_call_full (s := s.preStep) hsp nnn) rfl
  · intro hruns hsp
    exact step_of_raised hruns (exec_ret_empty (s := s.preStep) hsp) rfl

theorem exists_step (s : State) : ∃ t, step s = .next t := by
  obtain ⟨t, hstep, -⟩ := step_timers s
  exact ⟨t, hstep⟩

/-- Settles O13: every case of a step answers a next state. -/
theorem everyStepCompletes : Obligations.EveryStepCompletes := exists_step

/-! ### Halting (60_exceptions.md R236 to R239) -/

/-- The faults of the execute phase by the state before the step. -/
theorem State.Raises.cause {s : State} {i : Instr} {c : HaltCause} (h : s.preStep.Raises i c) (hruns : s.Runs i) :
    (c = .fetchOutOfRange ∧ 0xFFF ≤ s.pc.toNat) ∨
    (c = .stackOverflow ∧ s.sp.val = 16 ∧ ∃ nnn, s.Runs (.call nnn)) ∨
    (c = .stackUnderflow ∧ s.sp.val = 0 ∧ s.Runs .ret) ∨
    (c = .subnUnderflow ∧ s.subnUnderflow = .fault ∧ ∃ x y, s.Runs (.subn x y) ∧ s.SubnBelowZero x y) := by
  cases h with
  | overflow nnn hsp => exact .inr (.inl ⟨rfl, hsp, nnn, hruns⟩)
  | underflow hsp => exact .inr (.inr (.inl ⟨rfl, hsp, hruns⟩))
  | subn x y hpolicy hbelow => exact .inr (.inr (.inr ⟨rfl, hpolicy, x, y, hruns, hbelow⟩))

/-- Settles O12: of the cases of a step, only the fetch fault and a fault raised in the execute phase halt a running block. -/
theorem haltingIsPreciseAndHasItsCause : Obligations.HaltingIsPreciseAndHasItsCause := by
  intro s t c hrunning hstep hc
  obtain ⟨c', hhalted, -⟩ | ⟨-, hpc, hcycle⟩ | ⟨-, w, e, hfetch, hdecode, hcycle⟩ | ⟨-, w, i, hfetch, hdecode, -⟩ :=
    cycle_cases s
  · exact nomatch hrunning.symm.trans hhalted
  · obtain rfl := Host.Outcome.next.inj (hcycle.symm.trans hstep)
    obtain rfl : .fetchOutOfRange = c := Option.some.inj hc
    exact ⟨rfl, .inl ⟨rfl, hpc⟩⟩
  · have hrunning' : (s.preStep.emit (.unrecognized w)).halted = none := hrunning
    rw [finishStep_of_running hrunning'] at hcycle
    obtain rfl := Host.Outcome.next.inj (hcycle.symm.trans hstep)
    exact nomatch hrunning'.symm.trans hc
  · have hruns : s.Runs i := ⟨w, ⟨hrunning, hfetch⟩, hdecode⟩
    obtain ⟨u, hexec, -⟩ := exists_exec_frame i s.preStep
    obtain hhalted | ⟨c', hraises, hhalted⟩ := exec_halted_cases hexec
    · have hu : u.halted = none := hhalted.trans hrunning
      rw [step_of_runs hruns, hexec, finishResult, finishStep_of_running hu] at hstep
      obtain rfl := Host.Outcome.next.inj hstep
      exact nomatch hu.symm.trans hc
    · obtain rfl := Host.Outcome.next.inj ((step_of_raised hruns hexec hhalted).symm.trans hstep)
      obtain rfl : c' = c := Option.some.inj hc
      exact ⟨rfl, hraises.cause hruns⟩

end Sys2Proof.Machine
end

section
/-! SUPPORT. Who writes each element of the state, who reads the random input, and who changes the keys (10_state.md R20 to
R43; 20_memory.md R58). -/
namespace Sys2Proof.Machine

/-! ### The instructions whose effects name an element -/

section
variable {s : State} {i : Instr}

theorem State.writers_of_pc (h : (s.effectsOf i).pc = true) :
    (∃ nnn, i = .jp nnn ∨ i = .call nnn ∨ i = .jpv0 nnn) ∨ i = .ret ∨ (∃ x kk, i = .sei x kk ∨ i = .snei x kk) ∨
      (∃ x y, i = .ser x y ∨ i = .sner x y) ∨ ∃ x, i = .skp x ∨ i = .sknp x ∨ i = .ldvk x := by
  cases i <;> simp [State.effectsOf] at h ⊢

theorem State.writers_of_index (h : (s.effectsOf i).index = true) :
    (∃ nnn, i = .ldidx nnn) ∨ (∃ x, i = .addidx x) ∨ ∃ x, i = .ldf x := by
  cases i <;> simp [State.effectsOf] at h ⊢

theorem State.writers_of_stack (h : (s.effectsOf i).stack = true) : i = .ret ∨ ∃ nnn, i = .call nnn := by
  cases i <;> simp [State.effectsOf] at h ⊢

theorem State.writers_of_dt (h : (s.effectsOf i).dt = true) : ∃ x, i = .lddtv x := by
  cases i <;> simp [State.effectsOf] at h ⊢

theorem State.writers_of_st (h : (s.effectsOf i).st = true) : ∃ x, i = .ldstv x := by
  cases i <;> simp [State.effectsOf] at h ⊢

theorem State.writers_of_display (h : (s.effectsOf i).display = true) : i = .cls ∨ ∃ x y n, i = .drw x y n := by
  cases i <;> simp [State.effectsOf] at h ⊢

theorem State.writers_of_halted (h : (s.effectsOf i).halted = true) :
    i = .ret ∨ (∃ nnn, i = .call nnn) ∨ (s.subnUnderflow = .fault ∧ ∃ x y, i = .subn x y) := by
  cases i <;> simp [State.effectsOf] at h ⊢
  exact h

theorem State.writers_of_diags (h : (s.effectsOf i).diags = true) :
    (∃ x y n, i = .drw x y n) ∨ ∃ x, i = .ldb x ∨ i = .stm x ∨ i = .ldm x ∨ i = .skp x ∨ i = .sknp x := by
  cases i <;> simp [State.effectsOf] at h ⊢

theorem State.writers_of_rnd (h : (s.effectsOf i).rnd = true) : ∃ x kk, i = .rnd x kk := by
  cases i <;> simp [State.effectsOf] at h ⊢

end

/-- An element that a frame keeps when an effect is off changes only where the effect is on. -/
theorem effect_of_ne {α : Type} {b : Bool} {x y : α} (hkept : b = false → x = y) (hne : x ≠ y) : b = true :=
  Bool.of_not_eq_false fun h => hne (hkept h)

/-- Settles O58: what changes is named in the instruction's effects, and each effect has its writers. -/
theorem eachElementHasItsWriters : Obligations.EachElementHasItsWriters := by
  intro i s t h
  have hframe := exec_frame h
  refine ⟨fun r hne => ?_, fun hne => State.writers_of_pc (effect_of_ne hframe.pc hne),
    fun hne => State.writers_of_index (effect_of_ne hframe.index hne), ?_,
    fun hne => State.writers_of_dt (effect_of_ne hframe.dt hne),
    fun hne => State.writers_of_st (effect_of_ne hframe.st hne), hframe.keys,
    fun hne => State.writers_of_display (effect_of_ne hframe.display hne), fun hne => ?_,
    fun hne => State.writers_of_halted (effect_of_ne hframe.halted hne),
    fun hne => State.writers_of_diags (effect_of_ne hframe.diags hne),
    fun hne => State.writers_of_rnd (effect_of_ne hframe.rnd hne), hframe.beep, hframe.subnUnderflow⟩
  · by_contra hr
    exact hne (hframe.regs r (s.effectsOf_regs i ▸ hr))
  · rintro (hne | hne)
    · exact State.writers_of_stack (effect_of_ne hframe.sp hne)
    · exact State.writers_of_stack (effect_of_ne hframe.slots hne)
  · by_contra hno
    obtain ⟨hldb, hstm⟩ := not_or.mp hno
    exact hne (exec_mem h (not_exists.mp hldb) (not_exists.mp hstm))

/-! ### SUBN under the policy `fault` (42_alu.md R151, 60_exceptions.md R239) -/

section
variable {s : State} {x y : Reg}

theorem subnWith_fault_of_below (h : s.SubnBelowZero x y) :
    subnWith .fault x y s = raiseFault .subnUnderflow (s.writeFlag (subnFlag (s.readV x) (s.readV y))) := by
  obtain ⟨hwrap | hle, -⟩ | ⟨-, -, hraise⟩ := subnWith_cases .fault x y s
  · exact nomatch hwrap
  · exact absurd h (Nat.not_lt.mpr hle)
  · exact hraise

theorem subnWith_fault_of_not_below (h : ¬ s.SubnBelowZero x y) :
    subnWith .fault x y s = flagThenResult subnFlag (fun a b => b - a) x y s := by
  obtain ⟨-, hresult⟩ | ⟨-, hbelow, -⟩ := subnWith_cases .fault x y s
  · exact hresult
  · exact absurd hbelow h

end

/-! ### The random input (10_state.md R43) -/

/-- The state at another position of the random stream. -/
def State.atRnd (s : State) (n : Nat) : State := { s with rndIndex := n }

section
variable (s : State) (n : Nat)

theorem skipIf_atRnd (c : Bool) : (s.atRnd n).skipIf c = (s.skipIf c).atRnd n := by
  cases c <;> rfl

theorem skipOnKey_atRnd (wanted : Bool) (k : Byte) : skipOnKey wanted k (s.atRnd n) = (skipOnKey wanted k s).atRnd n := by
  unfold skipOnKey
  split
  · rfl
  · exact skipIf_atRnd s n _

theorem callTo_atRnd (w : Word) : callTo w (s.atRnd n) = (callTo w s).atRnd n := by
  by_cases h : s.sp.val < 16 <;> simp [callTo, State.atRnd, h, raiseFault]

theorem returnFromCall_atRnd : returnFromCall (s.atRnd n) = (returnFromCall s).atRnd n := by
  by_cases h : 0 < s.sp.val <;> simp [returnFromCall, State.atRnd, h, raiseFault]

theorem subnWith_atRnd (policy : Config.SubnUnderflow) (x y : Reg) :
    subnWith policy x y (s.atRnd n) = (subnWith policy x y s).atRnd n := by
  cases policy with
  | wrap =>
    rw [subnWith_wrap, subnWith_wrap]
    rfl
  | fault =>
    by_cases h : s.SubnBelowZero x y
    · rw [subnWith_fault_of_below h, subnWith_fault_of_below (s := s.atRnd n) h]
      rfl
    · rw [subnWith_fault_of_not_below h, subnWith_fault_of_not_below (s := s.atRnd n) h]
      rfl

theorem keyWait_atRnd (x : Reg) : keyWait x (s.atRnd n) = (keyWait x s).atRnd n := by
  have hkey : (s.atRnd n).firstKeyDown = s.firstKeyDown := rfl
  unfold keyWait
  rw [hkey]
  cases s.firstKeyDown <;> rfl

theorem drawSprite_atRnd (vx vy : Byte) (m : Nibble) :
    drawSprite vx vy m (s.atRnd n) = (drawSprite vx vy m s).atRnd n := by
  rw [drawSprite_eq, drawSprite_eq]
  rfl

theorem storeBcd_atRnd (b : Byte) : storeBcd b (s.atRnd n) = (storeBcd b s).atRnd n := by
  rw [storeBcd_eq, storeBcd_eq]
  rfl

theorem foldl_storeReg_atRnd (rs : List Reg) : rs.foldl storeReg (s.atRnd n) = (rs.foldl storeReg s).atRnd n := by
  rw [foldl_storeReg_eq, foldl_storeReg_eq]
  rfl

theorem foldl_loadReg_atRnd (rs : List Reg) : rs.foldl loadReg (s.atRnd n) = (rs.foldl loadReg s).atRnd n := by
  rw [foldl_loadReg_eq, foldl_loadReg_eq]
  rfl

end

/-- Every instruction but RND does at any position of the stream what it does at another. -/
theorem exec_atRnd {i : Instr} {s t : State} (hrnd : ∀ x kk, i ≠ .rnd x kk) (h : exec i s = .next t) (n : Nat) :
    exec i (s.atRnd n) = .next (t.atRnd n) := by
  refine of_exists_next h (P := fun t => exec i (s.atRnd n) = .next (t.atRnd n)) ?_
  cases i with
  | rnd x kk => exact absurd rfl (hrnd x kk)
  | ret => exact ⟨_, rfl, congrArg _ (returnFromCall_atRnd s n)⟩
  | call nnn => exact ⟨_, rfl, congrArg _ (callTo_atRnd s n _)⟩
  | sei | snei | ser | sner => exact ⟨_, rfl, congrArg _ (skipIf_atRnd s n _)⟩
  | skp | sknp => exact ⟨_, rfl, congrArg _ (skipOnKey_atRnd s n _ _)⟩
  | subn x y => exact ⟨_, rfl, congrArg _ (subnWith_atRnd s n _ x y)⟩
  | drw x y m => exact ⟨_, rfl, congrArg _ (drawSprite_atRnd s n _ _ m)⟩
  | ldvk x => exact ⟨_, rfl, congrArg _ (keyWait_atRnd s n x)⟩
  | ldb x => exact ⟨_, rfl, congrArg _ (storeBcd_atRnd s n _)⟩
  | stm x => exact ⟨_, rfl, congrArg _ (foldl_storeReg_atRnd s n _)⟩
  | ldm x => exact ⟨_, rfl, congrArg _ (foldl_loadReg_atRnd s n _)⟩
  | _ => exact ⟨_, rfl, rfl⟩

/-- Settles O32: only RND has the position among its effects, and no other instruction looks at it. -/
theorem onlyRndReadsTheRandomInput : Obligations.OnlyRndReadsTheRandomInput := by
  intro i s t n hrnd h
  refine ⟨exec_atRnd hrnd h n, ?_⟩
  by_contra hne
  obtain ⟨x, kk, hi⟩ := State.writers_of_rnd (effect_of_ne (exec_frame h).rnd hne)
  exact hrnd x kk hi

/-! ### The keys (10_state.md R30, R41) -/

theorem finishStep_keys {s t : State} (h : t.keys = s.keys) : (finishStep s t).keys = s.keys := by
  cases hhalted : t.halted with
  | some c => rw [finishStep_of_halted hhalted, abortStep_keys]
  | none => rw [finishStep_of_running hhalted, timerTick_keys, h]

theorem step_keys {s t : State} (h : step s = .next t) : t.keys = s.keys := by
  obtain ⟨_, -, hcycle⟩ | ⟨-, -, hcycle⟩ | ⟨-, w, e, -, -, hcycle⟩ | ⟨-, w, i, -, -, hcycle⟩ := cycle_cases s
  · exact Host.Outcome.next.inj (hcycle.symm.trans h) ▸ s.clearOutputs_keys
  · exact Host.Outcome.next.inj (hcycle.symm.trans h) ▸ abortStep_keys s _
  · exact Host.Outcome.next.inj (hcycle.symm.trans h) ▸ finishStep_keys rfl
  · obtain ⟨u, hexec, hframe⟩ := exists_exec_frame i s.preStep
    rw [hexec] at hcycle
    exact Host.Outcome.next.inj (hcycle.symm.trans h) ▸ finishStep_keys hframe.keys

/-- A load changes memory only, and keeps its canonical form (70_reset_and_hazards.md R262, R263). -/
theorem load_snd_eq (bytes : List Byte) (s : State) :
    ∃ m, (load bytes s).2 = { s with mem := m } ∧ (Memory.wf s.mem → Memory.wf m) := by
  by_cases h : bytes.length ≤ Config.maxProg
  · exact ⟨_, congrArg Prod.snd (load_of_length_le s h), fun hwf => Memory.wf_writeBytes hwf _ _⟩
  · exact ⟨s.mem, congrArg Prod.snd (load_of_lt_length s (Nat.lt_of_not_le h)), id⟩

/-- Settles O53: an event sets one key, `initMachine` clears them all, and neither a load nor a step writes them. -/
theorem keysChangeOnlyByTheHost : Obligations.KeysChangeOnlyByTheHost := by
  refine ⟨fun k j down s => ?_, fun _ _ _ => rfl, fun k s => ?_, fun bytes s => ?_, fun _ _ => step_keys⟩
  · rw [setKey_keys, Fin.getElem_fin, Vector.getElem_set]
    simp only [Fin.val_inj, eq_comm (a := k), Fin.getElem_fin]
  · exact Vector.getElem_replicate k.isLt
  · obtain ⟨m, hload, -⟩ := load_snd_eq bytes s
    rw [hload]

end Sys2Proof.Machine
end

section
/-! SUPPORT. Reset, load and key events: the memory they leave, and what they keep (70_reset_and_hazards.md R260 to R265;
10_state.md R41). -/
namespace Sys2Proof.Machine

/-! ### Memory right after reset (10_state.md R33) -/

theorem glyphTable_length : glyphTable.length = 80 := rfl

theorem Memory.unlisted_glyph (d : Nat) : Memory.unlisted (0x50 + d) = glyphTable.getD d 0 := by
  simp [Memory.unlisted]

theorem Memory.unlisted_outside {a : Nat} (h : a < 0x50 ∨ 0xA0 ≤ a) : Memory.unlisted a = 0 := by
  unfold Memory.unlisted
  split
  · next hbase =>
    have hge : 0x50 ≤ a := hbase
    have hlen : glyphTable.length ≤ a - 0x50 := by
      rw [glyphTable_length]
      omega
    exact List.getD_eq_default _ _ hlen
  · rfl

theorem Memory.read_nil {a : Nat} (h : a < 4096) : Memory.read [] a = some (Memory.unlisted a) :=
  Memory.read_of_lt h

/-- Settles O48: every element has its reset value by definition, and the empty memory reads as the glyph table and 0. -/
theorem resetState : Obligations.ResetState := by
  refine ⟨fun r => Vector.getElem_replicate r.isLt, rfl, rfl, rfl, fun k => Vector.getElem_replicate k.isLt, rfl, rfl,
    fun k => Vector.getElem_replicate k.isLt, fun k _ => cellAt_replicate_zero _ _, rfl, rfl, fun d hd => ?_,
    fun a ha houtside => ?_⟩
  · exact (Memory.read_nil (by omega)).trans (congrArg some (Memory.unlisted_glyph d))
  · exact (Memory.read_nil ha).trans (congrArg some (Memory.unlisted_outside houtside))

/-! ### Reset with a glyph table (00_scope.md R9) -/

theorem initMachineWith_byteAt_glyph (g : Vector Byte 80) (s : State) (d : Fin 80) :
    (initMachineWith g s).byteAt (0x50 + d.val) = some g[d] := by
  have hlen : d.val < g.toList.length := by simp
  have hread := Memory.read_writeBytes (a := 0x50) Memory.wf_nil d.val hlen (by omega)
  rw [Vector.getElem_toList] at hread
  exact hread

theorem initMachineWith_byteAt_outside (g : Vector Byte 80) (s : State) {a : Nat} (ha : a < 4096)
    (h : a < 0x50 ∨ 0xA0 ≤ a) : (initMachineWith g s).byteAt a = some 0 := by
  have hlen : a < 0x50 ∨ 0x50 + g.toList.length ≤ a := by simpa using h
  exact (Memory.read_writeBytes_ne hlen []).trans
    ((Memory.read_nil ha).trans (congrArg some (Memory.unlisted_outside h)))

/-- Writing the default glyph table over the memory right after reset changes nothing. -/
theorem writeBytes_glyphTable : Memory.writeBytes Config.glyphBase glyphTable [] = [] := by decide

/-- Settles O49: the table is a run of bytes over the empty memory, and the default one writes what is there already. -/
theorem initializeWithAnyGlyphTable : Obligations.InitializeWithAnyGlyphTable := by
  refine ⟨fun g s => ⟨initMachineWith_byteAt_glyph g s, fun a ha h => initMachineWith_byteAt_outside g s ha h,
    Memory.wf_writeBytes Memory.wf_nil _ _, rfl⟩, fun g s hg => ?_⟩
  rw [initMachineWith, hg, writeBytes_glyphTable]
  rfl

/-! ### load (70_reset_and_hazards.md R262, R265) -/

/-- Settles O50: the accepted program is a run of bytes from 0x200 on. -/
theorem loadPlacesTheProgram : Obligations.LoadPlacesTheProgram := by
  intro bytes s hwf hlen
  refine ⟨_, load_of_length_le s hlen, fun i hi => Memory.read_writeBytes (a := 0x200) hwf i hi (by omega),
    s.withMem_frame (fun a ha => ?_) fun _ => rfl⟩
  refine Memory.read_writeBytes_ne (a := 0x200) ?_ s.mem
  by_contra hin
  exact ha (List.mem_map.mpr ⟨a - 0x200, List.mem_range.mpr (by omega), by omega⟩)

theorem State.fetch_of_bytes {s : State} {hi lo : Byte} (hhi : s.byteAt s.pc.toNat = some hi)
    (hlo : s.byteAt (s.pc.toNat + 1) = some lo) : s.fetch = some (wordOfBytes hi lo) := by
  simp only [State.fetch, hhi, hlo]

/-- Settles O52: pc is 0x200 after `initMachine`, where load puts the first byte. -/
theorem firstFetchReadsTheFirstLoadedBytes : Obligations.FirstFetchReadsTheFirstLoadedBytes := by
  intro hi lo rest s hlen
  obtain ⟨t, hload, hbytes, hframe⟩ := loadPlacesTheProgram (hi :: lo :: rest) (initMachine s) Memory.wf_nil
    (by simp only [List.length_cons]; omega)
  have hpc : t.pc.toNat = 0x200 := congrArg BitVec.toNat (hframe.pc rfl)
  have hhi : t.byteAt t.pc.toNat = some hi := hpc ▸ hbytes 0 (by simp)
  have hlo : t.byteAt (t.pc.toNat + 1) = some lo := hpc ▸ hbytes 1 (by simp)
  exact ⟨t, _, hload, ⟨hframe.halted rfl, State.fetch_of_bytes hhi hlo⟩, wordOfBytes_toNat hi lo⟩

/-! ### The invariant and the halted state -/

theorem initMachine_inv (s : State) : (initMachine s).Inv where
  mem := Memory.wf_nil
  pc := (by decide : (0x200 : Word).toNat ≤ 0x10FE)
  slots k := by simp [initMachine, State.reset]
  fetchFault := nofun
  overflow := nofun
  underflow := nofun
  subn := nofun

/-- Settles O54: the reset state is what `initMachine` makes of itself. -/
theorem resetHasTheInvariant : Obligations.ResetHasTheInvariant := initMachine_inv State.reset

theorem load_inv (bytes : List Byte) {s : State} (hs : s.Inv) : (load bytes s).2.Inv := by
  obtain ⟨m, hload, hwf⟩ := load_snd_eq bytes s
  rw [hload]
  exact ⟨hwf hs.mem, hs.pc, hs.slots, hs.fetchFault, hs.overflow, hs.underflow, hs.subn⟩

theorem setKey_inv (k : Fin 16) (down : Bool) {s : State} (hs : s.Inv) : (setKey k down s).Inv :=
  ⟨hs.mem, hs.pc, hs.slots, hs.fetchFault, hs.overflow, hs.underflow, hs.subn⟩

/-- Settles O56: load keeps the canonical memory, and a key event touches no element of the invariant. -/
theorem hostOperationsKeepTheInvariant : Obligations.HostOperationsKeepTheInvariant :=
  ⟨fun bytes _ hs => load_inv bytes hs, fun k down _ hs => setKey_inv k down hs, initMachine_inv⟩

/-- Settles O57: of the four operations only `initMachine` writes `halted` of a halted block. -/
theorem onlyInitializeLeavesTheHaltedState : Obligations.OnlyInitializeLeavesTheHaltedState := by
  intro s c hc
  refine ⟨fun t hstep => ?_, fun bytes => ?_, fun _ _ => hc, rfl⟩
  · exact Host.Outcome.next.inj ((step_of_halted hc).symm.trans hstep) ▸ hc
  · obtain ⟨m, hload, -⟩ := load_snd_eq bytes s
    rw [hload]
    exact hc

/-! ### The parked state (70_reset_and_hazards.md R272) -/

/-- The word 0x1nnn is JP nnn. -/
theorem encode_jp_setWidth {w : Word} (h : w.toNat ≤ 0xFFF) : encode (.jp (w.setWidth 12)) = 0x1000 ||| w := by
  apply BitVec.eq_of_toNat_eq
  have hor : 2 ^ 12 * 1 + w.toNat = 2 ^ 12 * 1 ||| w.toNat := Nat.two_pow_add_eq_or_of_lt (by omega) 1
  rw [encode, encodeA_toNat, BitVec.toNat_setWidth, Nat.mod_eq_of_lt (by omega), BitVec.toNat_or]
  exact hor

theorem zext16_setWidth {w : Word} (h : w.toNat ≤ 0xFFF) : zext16 (w.setWidth 12) = w := by
  apply BitVec.eq_of_toNat_eq
  rw [toNat_zext16, BitVec.toNat_setWidth, Nat.mod_eq_of_lt (by omega)]

theorem State.Parked.runs {s : State} (h : s.Parked) : s.Runs (.jp (s.pc.setWidth 12)) := by
  refine ⟨_, ⟨h.running, h.jump⟩, ?_⟩
  rw [← encode_jp_setWidth (h.pc.trans (by decide)), decodeWord_encode]

/-- Settles O15: the step runs a jump to its own address, and the tick finds both timers at 0. -/
theorem parkedStateIsAFixedPoint : Obligations.ParkedStateIsAFixedPoint := by
  intro s h
  have hjump : exec (.jp (s.pc.setWidth 12)) s.preStep = .next s.clearOutputs := by
    show Host.Outcome.next (s.preStep.setPc (zext16 (s.pc.setWidth 12))) = _
    rw [zext16_setWidth (h.pc.trans (by decide))]
    rfl
  have hrunning : s.clearOutputs.halted = none := h.running
  rw [step_of_runs h.runs, hjump, finishResult, finishStep_of_running hrunning]
  simp [timerTick, State.clearOutputs, tickByte, h.dt, h.st]

end Sys2Proof.Machine
end

section
/-! SUPPORT. Jumps, calls, returns, register skips and the key instructions (41_flow.md R120 to R129; 45_keys_timers.md R210
to R215). -/
namespace Sys2Proof.Machine

/-! ### Jumps -/

/-- Settles O16: the jump is one write to pc. -/
theorem jumpSetsPc : Obligations.JumpSetsPc :=
  fun nnn s => ⟨s.setPc (zext16 nnn), rfl, toNat_zext16 nnn, s.setPc_frame rfl _⟩

/-- Settles O17: the sum stays below 2^16, so that pc is the sum of the numbers. -/
theorem jumpWithOffsetAddsV0 : Obligations.JumpWithOffsetAddsV0 :=
  fun nnn s => ⟨s.setPc _, rfl, toNat_jpv0_target nnn (s.readV 0), s.setPc_frame rfl _⟩

/-! ### Calls and returns -/

/-- The state a CALL leaves when a slot is free (R123). -/
def State.called (s : State) (w : Word) (h : s.sp.val < 16) : State :=
  { s with stack := s.stack.set s.sp.val s.pc h, sp := ⟨s.sp.val + 1, by omega⟩, pc := w }

/-- The state a RET leaves when a slot is occupied (R121). -/
def State.returned (s : State) (h : 0 < s.sp.val) : State :=
  { s with sp := ⟨s.sp.val - 1, by omega⟩, pc := s.stack[s.sp.val - 1] }

theorem exec_call_free {s : State} (h : s.sp.val < 16) (nnn : Addr12) :
    exec (.call nnn) s = .next (s.called (zext16 nnn) h) :=
  congrArg _ (dif_pos h)

theorem exec_ret_occupied {s : State} (h : 0 < s.sp.val) : exec .ret s = .next (s.returned h) :=
  congrArg _ (dif_pos h)

theorem called_slot {s : State} (h : s.sp.val < 16) (w : Word) (k : Fin 16) :
    (s.called w h).stack[k] = if k.val = s.sp.val then s.pc else s.stack[k] := by
  show (s.stack.set s.sp.val s.pc h)[k.val] = _
  rw [Vector.getElem_set]
  simp only [eq_comm (a := s.sp.val), Fin.getElem_fin]

/-- Settles O18: a call either pushes into the free slot or raises StackOverflow. -/
theorem callPushesAndJumps : Obligations.CallPushesAndJumps := by
  intro nnn s
  refine ⟨fun hsp => ?_, fun hsp => exec_call_full hsp nnn⟩
  exact ⟨s.called (zext16 nnn) hsp, exec_call_free hsp nnn, rfl, toNat_zext16 nnn, called_slot hsp _,
    s.withStack_frame rfl rfl _ _ _⟩

/-- Settles O19: a return either pops the topmost slot or raises StackUnderflow. -/
theorem returnPopsPc : Obligations.ReturnPopsPc := by
  intro s
  refine ⟨fun hsp => ?_, exec_ret_empty⟩
  refine ⟨s.returned hsp, exec_ret_occupied hsp, rfl, fun k hk => ?_, rfl, s.withStack_frame rfl rfl _ _ _⟩
  simp only [State.returned, Fin.getElem_fin, hk]

/-- Settles O20: the topmost slot a CALL leaves holds the pc it pushed. -/
theorem returnComesBackFromCall : Obligations.ReturnComesBackFromCall := by
  intro nnn s hsp
  refine ⟨s.called (zext16 nnn) hsp, exec_call_free hsp nnn, fun t' hstack hsp' => ?_⟩
  have hsp_val : t'.sp.val = s.sp.val + 1 := congrArg Fin.val hsp'
  have hpos : 0 < t'.sp.val := by omega
  have hslot := called_slot hsp (zext16 nnn) ⟨s.sp.val, hsp⟩
  rw [if_pos rfl, ← hstack] at hslot
  refine ⟨t'.returned hpos, exec_ret_occupied hpos, ?_, Fin.ext ?_⟩
  · simpa only [State.returned, hsp_val, Nat.add_sub_cancel, Fin.getElem_fin] using hslot
  · show t'.sp.val - 1 = s.sp.val
    omega

/-! ### Register skips -/

theorem exec_ser (x y : Reg) (s : State) : exec (.ser x y) s = .next (s.skipIf (s.readV x == s.readV y)) := rfl

theorem exec_sner (x y : Reg) (s : State) : exec (.sner x y) s = .next (s.skipIf (s.readV x != s.readV y)) := rfl

theorem exec_ser_eq (x y : Reg) (s : State) :
    exec (.ser x y) s = .next (if s.readV x = s.readV y then { s with pc := s.pc + 2 } else s) := by
  rw [exec_ser, State.skipIf_beq]

theorem exec_sner_eq (x y : Reg) (s : State) :
    exec (.sner x y) s = .next (if s.readV x = s.readV y then s else { s with pc := s.pc + 2 }) := by
  rw [exec_sner, State.skipIf_bne]

/-- Settles O22: the skips compare two registers, and families 5 and 9 do not examine the low nibble. -/
theorem registerSkips : Obligations.RegisterSkips := by
  refine ⟨fun x y s => ⟨exec_ser_eq x y s, exec_sner_eq x y s⟩, fun x s => ⟨?_, ?_⟩,
    fun w => ⟨fun h => ?_, fun h => ?_⟩⟩
  · rw [exec_ser_eq, if_pos rfl]
  · rw [exec_sner_eq, if_pos rfl]
  · rw [← fieldF_toNat] at h
    simp only [decodeWord, h]
  · rw [← fieldF_toNat] at h
    simp only [decodeWord, h]

/-! ### Keys -/

theorem skipOnKey_of_ge {k : Byte} (h : 16 ≤ k.toNat) (wanted : Bool) (s : State) :
    skipOnKey wanted k s = { s with diags := s.diags ++ [.keyIndexOutOfRange k] } := by
  obtain ⟨-, heq⟩ | ⟨hlt, -⟩ := skipOnKey_cases wanted k s
  · exact heq
  · omega

theorem skipOnKey_of_key {k : Byte} {j : Fin 16} (h : k.toNat = j.val) (wanted : Bool) (s : State) :
    skipOnKey wanted k s = if s.keys[j] = wanted then { s with pc := s.pc + 2 } else s := by
  obtain ⟨hge, -⟩ | ⟨-, heq⟩ := skipOnKey_cases wanted k s
  · omega
  · rw [heq, h, s.keyDown_eq]
    cases s.keys[j] <;> cases wanted <;> rfl

/-- Settles O45: a key index in range looks at that key, and one out of range only reports itself. -/
theorem keySkips : Obligations.KeySkips := by
  intro x s
  refine ⟨fun k hk => ⟨?_, ?_⟩, fun hge => ⟨?_, ?_⟩⟩
  · exact congrArg _ (skipOnKey_of_key hk true s)
  · refine congrArg _ ((skipOnKey_of_key hk false s).trans ?_)
    cases s.keys[k] <;> rfl
  · exact congrArg _ (skipOnKey_of_ge hge true s)
  · exact congrArg _ (skipOnKey_of_ge hge false s)

theorem firstKeyDown_eq_some {s : State} {k : Fin 16} (hk : s.keys[k] = true)
    (hlower : ∀ j : Fin 16, j < k → s.keys[j] = false) : s.firstKeyDown = some k.val := by
  refine List.find?_range_eq_some.mpr ⟨?_, List.mem_range.mpr k.isLt, fun j hj => ?_⟩
  · rw [s.keyDown_eq, hk]
  · have hkey := s.keyDown_eq ⟨j, by omega⟩
    rw [hlower ⟨j, by omega⟩ hj] at hkey
    exact Bool.not_eq_true' _ ▸ hkey

theorem firstKeyDown_eq_none {s : State} (h : ∀ k : Fin 16, s.keys[k] = false) : s.firstKeyDown = none := by
  rw [State.firstKeyDown, List.find?_eq_none]
  intro k hk
  have hkey := s.keyDown_eq ⟨k, List.mem_range.mp hk⟩
  rw [h] at hkey
  exact Bool.not_eq_true _ ▸ hkey

theorem exec_ldvk (x : Reg) (s : State) : exec (.ldvk x) s = .next (keyWait x s) := rfl

theorem keyWait_of_some {s : State} {k : Nat} (h : s.firstKeyDown = some k) (x : Reg) :
    keyWait x s = s.writeV x (BitVec.ofNat 8 k) := by
  simp only [keyWait, h]

theorem keyWait_of_none {s : State} (h : s.firstKeyDown = none) (x : Reg) : keyWait x s = s.rewindPc := by
  simp only [keyWait, h]

/-- A key-wait with no key down undoes the advance of pc in its own step. -/
theorem step_keyWait_of_none {s : State} {x : Reg} (h : ∀ k : Fin 16, s.keys[k] = false) (hruns : s.Runs (.ldvk x)) :
    step s = .next (timerTick s.preStep.rewindPc) := by
  have ⟨_, ⟨hrunning, _⟩, _⟩ := hruns
  have hkeys : s.preStep.firstKeyDown = none := firstKeyDown_eq_none (s := s.preStep) h
  have hrunning' : s.preStep.rewindPc.halted = none := hrunning
  rw [step_of_runs hruns, exec_ldvk, keyWait_of_none hkeys, finishResult, finishStep_of_running hrunning']

/-- Settles O46: the scan finds the lowest key down, or none, and then pc goes back over the advance of the step. -/
theorem Laws.keyWait : Obligations.KeyWait := by
  intro x s
  refine ⟨fun k hk hlower => ?_, fun hnone => ⟨?_, fun hruns => ?_⟩⟩
  · have hexec : exec (.ldvk x) s = .next (s.writeV x (BitVec.ofNat 8 k.val)) := by
      rw [exec_ldvk, keyWait_of_some (firstKeyDown_eq_some hk hlower)]
    obtain ⟨t, ht, hread, hframe⟩ := exists_next_of_eq_writeV s hexec
    refine ⟨t, ht, ?_, hframe⟩
    rw [hread, BitVec.toNat_ofNat, Nat.mod_eq_of_lt (by omega)]
  · rw [exec_ldvk, keyWait_of_none (firstKeyDown_eq_none hnone)]
    rfl
  · refine ⟨_, step_keyWait_of_none hnone hruns, ?_, rfl⟩
    show s.pc + 2 - 2 = s.pc
    exact BitVec.add_sub_cancel _ _

end Sys2Proof.Machine
end

section
/-! SUPPORT. The flag writers in every aliasing of x, y and VF, the bitwise operations, RND and the arithmetic of I
(42_alu.md R141 to R154; 43_index_memory.md R171, R172). -/
namespace Sys2Proof.Machine

/-! ### Flag first, result second (42_alu.md R141) -/

/-- The registers after a flag writer with flag `f` and result `op`, by whether x and y are VF. -/
structure FlagThenResult (f op : Byte → Byte → Byte) (x y : Reg) (s t : State) : Prop where
  frame {e : Effects} (hx : x ∈ e.regs) (hvf : vf ∈ e.regs) : Frame e s t
  flag (hx : x ≠ vf) : t.readV vf = f (s.readV x) (s.readV y)
  result (hx : x ≠ vf) (hy : y ≠ vf) : t.readV x = op (s.readV x) (s.readV y)
  result_left (hx : x = vf) (hy : y ≠ vf) : t.readV vf = op (f (s.readV x) (s.readV y)) (s.readV y)
  result_right (hx : x ≠ vf) (hy : y = vf) : t.readV x = op (s.readV x) (f (s.readV x) (s.readV y))
  result_both (hx : x = vf) (hy : y = vf) :
    t.readV vf = op (f (s.readV x) (s.readV y)) (f (s.readV x) (s.readV y))

theorem flagThenResult_spec (f op : Byte → Byte → Byte) (x y : Reg) (s : State) :
    FlagThenResult f op x y s (flagThenResult f op x y s) where
  frame hx hvf := flagThenResult_frame s f op hx hvf y
  flag hx := by rw [flagThenResult_eq, State.writeV_readV_ne _ _ _ _ hx.symm, State.writeV_readV_self]
  result hx hy := by rw [flagThenResult_eq, State.writeV_readV_self, if_neg hx.symm, if_neg hy.symm]
  result_left hx hy := by subst hx; rw [flagThenResult_eq, State.writeV_readV_self, if_pos rfl, if_neg hy.symm]
  result_right hx hy := by subst hy; rw [flagThenResult_eq, State.writeV_readV_self, if_neg hx.symm, if_pos rfl]
  result_both hx hy := by subst hx hy; rw [flagThenResult_eq, State.writeV_readV_self, if_pos rfl]

/-! ### The flags as numbers -/

theorem carryFlag_toNat (a b : Byte) : (carryFlag a b).toNat = if a.toNat + b.toNat > 255 then 1 else 0 := by
  unfold carryFlag
  split <;> rfl

theorem subFlag_toNat (a b : Byte) : (subFlag a b).toNat = if a.toNat > b.toNat then 1 else 0 := by
  unfold subFlag
  split <;> rfl

theorem subnFlag_toNat (a b : Byte) : (subnFlag a b).toNat = if b.toNat > a.toNat then 1 else 0 := by
  unfold subnFlag
  split <;> rfl

theorem toNat_sub_byte (a b : Byte) : (a - b).toNat = (256 + a.toNat - b.toNat) % 256 := by
  have := a.isLt
  have := b.isLt
  rw [BitVec.toNat_sub]
  omega

/-! ### ADD, SUB and SUBN -/

/-- Settles O26: the sum in each aliasing, the carry being 0 or 1. -/
theorem addWithCarry : Obligations.AddWithCarry := by
  intro x y s c hc
  have h := flagThenResult_spec carryFlag (fun a b => a + b) x y s
  have hflag : (carryFlag (s.readV x) (s.readV y)).toNat = c := (carryFlag_toNat _ _).trans hc.symm
  have hle : c ≤ 1 := by split at hc <;> omega
  refine ⟨_, rfl, h.frame (by simp) (by simp), fun hx hy => ⟨?_, ?_⟩, fun hx hy => ?_, fun hx hy => ⟨?_, ?_⟩,
    fun hx hy => ?_⟩
  · rw [h.flag hx, hflag]
  · rw [h.result hx hy, BitVec.toNat_add]
  · rw [h.result_left hx hy, BitVec.toNat_add, hflag]
  · rw [h.flag hx, hflag]
  · rw [h.result_right hx hy, BitVec.toNat_add, hflag]
  · rw [h.result_both hx hy, BitVec.toNat_add, hflag]
    omega

/-- Settles O27: the difference in each aliasing. -/
theorem subtractWithBorrow : Obligations.SubtractWithBorrow := by
  intro x y s b hb
  have h := flagThenResult_spec subFlag (fun a b => a - b) x y s
  have hflag : (subFlag (s.readV x) (s.readV y)).toNat = b := (subFlag_toNat _ _).trans hb.symm
  refine ⟨_, rfl, h.frame (by simp) (by simp), fun hx hy => ⟨?_, ?_⟩, fun hx hy => ?_, fun hx hy => ⟨?_, ?_⟩,
    fun hx hy => ?_⟩
  · rw [h.flag hx, hflag]
  · rw [h.result hx hy, toNat_sub_byte]
  · rw [h.result_left hx hy, toNat_sub_byte, hflag]
  · rw [h.flag hx, hflag]
  · rw [h.result_right hx hy, toNat_sub_byte, hflag]
  · rw [h.result_both hx hy, BitVec.sub_self]
    rfl

theorem exec_subn (x y : Reg) (s : State) : exec (.subn x y) s = .next (subnWith s.subnUnderflow x y s) := rfl

/-- Settles O28: the reverse difference in each aliasing; with x = F the flag is 1 only where Vy is above 0. -/
theorem reverseSubtractWraps : Obligations.ReverseSubtractWraps := by
  intro x y s f hpolicy hf
  have h := flagThenResult_spec subnFlag (fun a b => b - a) x y s
  have hflag : (subnFlag (s.readV x) (s.readV y)).toNat = f := (subnFlag_toNat _ _).trans hf.symm
  have hexec : exec (.subn x y) s = .next (flagThenResult subnFlag (fun a b => b - a) x y s) := by
    rw [exec_subn, hpolicy, subnWith_wrap]
  refine ⟨_, hexec, h.frame (by simp) (by simp), fun hx hy => ⟨?_, ?_⟩, fun hx hy => ?_, fun hx hy => ⟨?_, ?_⟩,
    fun hx hy => ?_⟩
  · rw [h.flag hx, hflag]
  · rw [h.result hx hy, toNat_sub_byte]
  · have hle : f ≤ (s.readV y).toNat := by split at hf <;> omega
    have := (s.readV y).isLt
    rw [h.result_left hx hy, toNat_sub_byte, hflag]
    omega
  · rw [h.flag hx, hflag]
  · rw [h.result_right hx hy, toNat_sub_byte, hflag]
  · rw [h.result_both hx hy, BitVec.sub_self]
    rfl

/-- Below 0 means: Vy is less than Vx as the flag's write left them. -/
theorem State.subnBelowZero_iff (s : State) (x y : Reg) :
    s.SubnBelowZero x y ↔
      (if vf = y then subnFlag (s.readV x) (s.readV y) else s.readV y).toNat <
        (if vf = x then subnFlag (s.readV x) (s.readV y) else s.readV x).toNat := by
  rw [← State.writeV_readV, ← State.writeV_readV]
  exact Iff.rfl

/-- Settles O29: under the policy `fault` the two cases of a difference below 0 and of an exact one. -/
theorem subnFaultPolicyFaultsExactlyOnUnderflow : Obligations.SubnFaultPolicyFaultsExactlyOnUnderflow := by
  intro x y s hpolicy
  refine ⟨fun hbelow => ?_, fun hexact => ?_⟩
  · have hraise {s : State} (hpolicy : s.subnUnderflow = .fault) (hbelow : s.SubnBelowZero x y) :
        ∃ t, exec (.subn x y) s = .next t ∧ t.halted = some .subnUnderflow := by
      rw [exec_subn, hpolicy, subnWith_fault_of_below hbelow]
      exact ⟨_, rfl, rfl⟩
    refine ⟨hraise hpolicy hbelow, fun hruns => ?_⟩
    obtain ⟨t, hexec, hhalted⟩ := hraise (s := s.preStep) hpolicy hbelow
    exact step_of_raised hruns hexec hhalted
  · have h := flagThenResult_spec subnFlag (fun a b => b - a) x y s
    have hexec : exec (.subn x y) s = .next (flagThenResult subnFlag (fun a b => b - a) x y s) := by
      rw [exec_subn, hpolicy, subnWith_fault_of_not_below hexact]
    have hwrap : exec (.subn x y) { s with subnUnderflow := .wrap } =
        .next { flagThenResult subnFlag (fun a b => b - a) x y s with subnUnderflow := .wrap } :=
      congrArg _ (subnWith_wrap x y { s with subnUnderflow := .wrap })
    rw [s.subnBelowZero_iff, Nat.not_lt, ← BitVec.le_def] at hexact
    refine ⟨_, hexec, h.frame (by simp) (by simp), hwrap, fun f hf => ?_⟩
    have hflag : (subnFlag (s.readV x) (s.readV y)).toNat = f := (subnFlag_toNat _ _).trans hf.symm
    refine ⟨fun hx hy => ⟨?_, ?_⟩, fun hx hy => ?_, fun hx hy => ⟨?_, ?_⟩, fun hx hy => ?_⟩
    · rw [h.flag hx, hflag]
    · rw [if_neg hx.symm, if_neg hy.symm] at hexact
      rw [h.result hx hy, BitVec.toNat_sub_of_le hexact]
    · rw [if_pos hx.symm, if_neg hy.symm] at hexact
      rw [h.result_left hx hy, BitVec.toNat_sub_of_le hexact, hflag]
    · rw [h.flag hx, hflag]
    · rw [if_neg hx.symm, if_pos hy.symm] at hexact
      rw [h.result_right hx hy, BitVec.toNat_sub_of_le hexact, hflag]
    · rw [h.result_both hx hy, BitVec.sub_self]
      rfl

/-! ### Shifts (42_alu.md R150, R152) -/

theorem shrFlag_toNat (a : Byte) : (shrFlag a).toNat = a.toNat % 2 := by
  revert a; decide

theorem shlFlag_toNat (a : Byte) : (shlFlag a).toNat = 0x10 * (a.toNat / 16 % 2) := by
  revert a; decide

theorem toNat_shr_one (a : Byte) : (a >>> 1).toNat = a.toNat / 2 := by
  rw [BitVec.toNat_ushiftRight, Nat.shiftRight_eq_div_pow]

theorem toNat_shl_one (a : Byte) : (a <<< 1).toNat = 2 * a.toNat % 256 := by
  rw [BitVec.toNat_shiftLeft, Nat.shiftLeft_eq]
  omega

/-- Settles O30: both shifts are flag writers of Vx and Vx, so that y plays no part. -/
theorem shiftsOfVx : Obligations.ShiftsOfVx := by
  intro x y y' s
  have hr := flagThenResult_spec (fun a _ => shrFlag a) (fun a _ => a >>> 1) x x s
  have hl := flagThenResult_spec (fun a _ => shlFlag a) (fun a _ => a <<< 1) x x s
  refine ⟨⟨_, rfl, rfl, hr.frame (by simp) (by simp), fun hx => ⟨?_, ?_⟩, fun hx => ?_⟩,
    ⟨_, rfl, rfl, hl.frame (by simp) (by simp), fun hx => ⟨?_, ?_⟩, fun hx => ?_⟩⟩
  · rw [hr.flag hx, shrFlag_toNat]
  · rw [hr.result hx hx, toNat_shr_one]
  · rw [hr.result_both hx hx, toNat_shr_one, shrFlag_toNat]
    omega
  · rw [hl.flag hx, shlFlag_toNat]
  · rw [hl.result hx hx, toNat_shl_one]
  · rw [hl.result_both hx hx, toNat_shl_one, shlFlag_toNat, hx]
    omega

/-! ### Bitwise operations and RND -/

theorem exec_or (x y : Reg) (s : State) : exec (.or x y) s = .next (s.writeV x (s.readV x ||| s.readV y)) := rfl

theorem exec_and (x y : Reg) (s : State) : exec (.and x y) s = .next (s.writeV x (s.readV x &&& s.readV y)) := rfl

theorem exec_xor (x y : Reg) (s : State) : exec (.xor x y) s = .next (s.writeV x (s.readV x ^^^ s.readV y)) := rfl

/-- Settles O25: each operation is one register write, and acts on each bit by itself. -/
theorem bitwiseOperations : Obligations.BitwiseOperations := by
  intro x y s
  refine ⟨?_, ?_, ?_⟩
  · obtain ⟨t, hexec, hread, hframe⟩ := exists_next_of_eq_writeV s (exec_or x y s)
    exact ⟨t, hexec, hframe, fun k => by rw [hread, BitVec.getLsbD_or]⟩
  · obtain ⟨t, hexec, hread, hframe⟩ := exists_next_of_eq_writeV s (exec_and x y s)
    exact ⟨t, hexec, hframe, fun k => by rw [hread, BitVec.getLsbD_and]⟩
  · obtain ⟨t, hexec, hread, hframe⟩ := exists_next_of_eq_writeV s (exec_xor x y s)
    exact ⟨t, hexec, hframe, fun k => by rw [hread, BitVec.getLsbD_xor]⟩

/-- Settles O31: the byte of this reading is masked, and the counter moves on before the register is written. -/
theorem randomByteIsMasked : Obligations.RandomByteIsMasked := by
  intro x kk s
  have hread : (s.nextRnd.writeV x (s.rndByte &&& kk)).readV x = Config.rndByte s.rndIndex &&& kk :=
    s.nextRnd.writeV_readV_self x _
  refine ⟨s.nextRnd.writeV x (s.rndByte &&& kk), rfl, hread, ?_, rfl,
    (s.nextRnd_frame rfl).trans (State.writeV_frame _ List.mem_cons_self _)⟩
  rw [hread, BitVec.and_assoc, BitVec.and_not_self]
  exact BitVec.and_zero

/-! ### The index register -/

/-- Settles O34: each instruction is one write to I; the sum wraps, and a glyph's address never does. -/
theorem indexArithmetic : Obligations.IndexArithmetic := by
  intro x s
  have := (s.readV x).isLt
  refine ⟨⟨s.setIndex _, rfl, ?_, s.setIndex_frame rfl _⟩, ⟨s.setIndex _, rfl, ?_, s.setIndex_frame rfl _⟩⟩
  · rw [State.setIndex_index, BitVec.toNat_add, BitVec.toNat_setWidth_of_le (by decide)]
  · rw [State.setIndex_index, BitVec.toNat_ofNat]
    show (0x50 + 5 * _) % 2 ^ 16 = _
    omega

end Sys2Proof.Machine
end

section
/-! SUPPORT. The transfers between registers and memory: LD B and LD [I] both store one byte per register number at I + r,
and LD Vx,[I] reads them back (43_index_memory.md R173 to R175; 20_memory.md R64). -/
namespace Sys2Proof.Machine

/-! ### The common shape of the two stores -/

theorem effAddr_regsUpTo (s : State) (x : Reg) :
    ((regsUpTo x).map fun r => s.effAddr r.val) = (List.range (x.val + 1)).map s.effAddr := by
  rw [← regsUpTo_map_val, List.map_map]
  rfl

theorem filter_le_eq_regsUpTo (x : Reg) : (List.finRange 16).filter (· ≤ x) = regsUpTo x := by
  revert x; decide

theorem getElem?_regsUpTo {x r : Reg} (h : r ≤ x) : (regsUpTo x)[r.val]? = some r := by
  revert x r; decide

theorem length_regsUpTo (x : Reg) : (regsUpTo x).length = x.val + 1 := by
  rw [← List.length_map (f := Fin.val), regsUpTo_map_val, List.length_range]

/-- The byte `g r` stored at I + r for each r up to x, each address checked on its own. -/
def storeUpTo (x : Reg) (g : Reg → Byte) (s : State) : State :=
  { s with
    mem := (regsUpTo x).foldl (fun m r => Memory.write (s.effAddr r.val) (g r) m) s.mem
    diags := s.diags ++ outOfRange .write ((List.range (x.val + 1)).map s.effAddr) }

/-- The three digits of LD B by their offset from I (R173). -/
def bcdDigit (b : Byte) (r : Reg) : Byte :=
  if r = 0 then bcdHundreds b else if r = 1 then bcdTens b else bcdOnes b

theorem exec_stm_eq (x : Reg) (s : State) : exec (.stm x) s = .next (storeUpTo x s.readV s) := by
  rw [exec_stm, foldl_storeReg_eq, effAddr_regsUpTo]
  rfl

/-- LD B stores its digits as LD [I] stores V0 to V2. -/
theorem exec_ldb_eq (x : Reg) (s : State) : exec (.ldb x) s = .next (storeUpTo 2 (bcdDigit (s.readV x)) s) :=
  congrArg _ (storeBcd_eq (s.readV x) s)

section
variable {x : Reg} {g : Reg → Byte} {s : State}

theorem storeUpTo_frame : Frame { bytes := (List.range (x.val + 1)).map s.effAddr, diags := true } s (storeUpTo x g s) := by
  refine s.withMem_frame (fun a ha => ?_) nofun
  have hne : ∀ r ∈ regsUpTo x, s.effAddr r.val ≠ a := fun r hr h => ha (h ▸ effAddr_mem_of_mem_regsUpTo s hr)
  exact read_foldl_write_ne s g hne s.mem

theorem storeUpTo_byteAt_of_le (hwf : Memory.wf s.mem) {r : Reg} (hr : r ≤ x) (h : s.effAddr r.val < 4096) :
    (storeUpTo x g s).byteAt (s.effAddr r.val) = some (g r) := by
  obtain ⟨-, hstored, -⟩ := foldl_write_spec (nodup_regsUpTo x) s g hwf
  exact hstored r ((mem_regsUpTo x r).mpr hr) h

/-- Memory after the store reads as the bytes laid over it from I on. -/
theorem storeUpTo_byteAt (hwf : Memory.wf s.mem) {a : Nat} (ha : a < 4096) :
    (storeUpTo x g s).byteAt a = s.afterStoreAtI ((regsUpTo x).map g) a := by
  have hlen : ((regsUpTo x).map g).length = x.val + 1 := by rw [List.length_map, length_regsUpTo]
  unfold State.afterStoreAtI
  rw [hlen]
  split
  · next h =>
    obtain ⟨r, hr⟩ : ∃ r : Reg, r.val = a - s.index.toNat := ⟨⟨a - s.index.toNat, by omega⟩, rfl⟩
    have hle : r ≤ x := Fin.le_def.mpr (by omega)
    have haddr : s.effAddr r.val = a := by
      rw [State.effAddr]
      omega
    rw [← hr, List.getElem?_map, getElem?_regsUpTo hle, ← haddr, storeUpTo_byteAt_of_le hwf hle (by omega)]
    rfl
  · next h =>
    refine storeUpTo_frame.bytes a fun hmem => h ?_
    obtain ⟨k, hk, rfl⟩ := List.mem_map.mp hmem
    have := List.mem_range.mp hk
    rw [State.effAddr]
    omega

end

/-! ### The digits -/

theorem bcdHundreds_toNat (b : Byte) : (bcdHundreds b).toNat = b.toNat / 100 := BitVec.toNat_udiv

theorem bcdTens_toNat (b : Byte) : (bcdTens b).toNat = b.toNat / 10 % 10 := by
  rw [bcdTens, BitVec.toNat_umod, BitVec.toNat_udiv]
  rfl

theorem bcdOnes_toNat (b : Byte) : (bcdOnes b).toNat = b.toNat % 10 := BitVec.toNat_umod

/-- Settles O35: the store puts each digit at its own offset. -/
theorem storeBcdDigits : Obligations.StoreBcdDigits := by
  intro x s hwf
  refine ⟨_, exec_ldb_eq x s, fun k hk haddr => ?_, rfl, storeUpTo_frame (x := 2)⟩
  have hle : (⟨k, by omega⟩ : Reg) ≤ 2 := Fin.le_def.mpr (Nat.le_of_lt_succ hk)
  refine ⟨_, storeUpTo_byteAt_of_le hwf hle haddr, ?_, ?_, ?_⟩
  · rintro rfl
    exact bcdHundreds_toNat _
  · rintro rfl
    exact bcdTens_toNat _
  · rintro rfl
    exact bcdOnes_toNat _

/-- Settles O36: the store puts each register at its own offset. -/
theorem storeRegisters : Obligations.StoreRegisters := by
  intro x s hwf
  exact ⟨_, exec_stm_eq x s, fun r hr haddr => storeUpTo_byteAt_of_le hwf hr haddr, rfl, storeUpTo_frame⟩

/-! ### Loading registers -/

/-- Settles O37: each register is set once, from its own byte or from itself. -/
theorem loadRegisters : Obligations.LoadRegisters := by
  intro x s
  refine ⟨(regsUpTo x).foldl loadReg s, rfl, fun r hr => ?_, ?_,
    foldl_loadReg_frame s (nodup_regsUpTo x) (fun r hr => mem_filter_of_mem_regsUpTo hr) rfl⟩
  · have hset := foldl_set_spec (nodup_regsUpTo x) (fun r b => (s.byteAt (s.effAddr r.val)).getD b) s.v r
    rw [if_pos ((mem_regsUpTo x r).mpr hr)] at hset
    rw [foldl_loadReg_eq]
    exact hset
  · rw [foldl_loadReg_eq, effAddr_regsUpTo]
    rfl

/-- Settles O38: the load reads the bytes the store has put there, and names no register above Vx. -/
theorem storedRegistersLoadBack : Obligations.StoredRegistersLoadBack := by
  intro x s hwf hin
  obtain ⟨t, hstore, hstored, -, hframe⟩ := storeRegisters x s hwf
  refine ⟨t, hstore, fun v' => ?_⟩
  obtain ⟨u, hload, hloaded, -, hframe'⟩ := loadRegisters x { t with v := v' }
  refine ⟨u, hload, fun r hr => ?_, fun r hr => ?_⟩
  · have haddr : s.effAddr r.val < 4096 := lt_of_le_of_lt (Nat.add_le_add_left hr _) hin
    have hindex : ({ t with v := v' } : State).effAddr r.val = s.effAddr r.val :=
      congrArg (·.toNat + r.val) (hframe.index rfl)
    have hread : ({ t with v := v' } : State).byteAt (s.effAddr r.val) = some (s.readV r) := hstored r hr haddr
    rw [hloaded r hr, hindex, hread]
    rfl
  · exact hframe'.regs r fun hmem => absurd (by simpa using hmem) (not_le.mpr hr)

/-! ### The next fetch after a store -/

theorem storedBytes_ldb (x : Reg) (s : State) :
    s.storedBytes (.ldb x) = (regsUpTo 2).map (bcdDigit (s.readV x)) := by
  simp only [State.storedBytes, ← bcdHundreds_toNat, ← bcdTens_toNat, ← bcdOnes_toNat, List.map_cons, List.map_nil,
    BitVec.ofNat_toNat, BitVec.setWidth_eq]
  rfl

theorem storedBytes_stm (x : Reg) (s : State) : s.storedBytes (.stm x) = (regsUpTo x).map s.readV := by
  rw [State.storedBytes, filter_le_eq_regsUpTo]

/-- What memory reads as after either store, which leaves pc and `halted` alone. -/
theorem exec_store_spec {x : Reg} {i : Instr} (hi : i = .ldb x ∨ i = .stm x) {s : State} (hwf : Memory.wf s.mem) :
    ∃ t e, exec i s = .next t ∧ (∀ a < 4096, t.byteAt a = s.afterStoreAtI (s.storedBytes i) a) ∧
      Frame e s t ∧ e.pc = false ∧ e.halted = false := by
  rcases hi with rfl | rfl
  · rw [storedBytes_ldb]
    exact ⟨_, _, exec_ldb_eq x s, fun a ha => storeUpTo_byteAt hwf ha, storeUpTo_frame, rfl, rfl⟩
  · rw [storedBytes_stm]
    exact ⟨_, _, exec_stm_eq x s, fun a ha => storeUpTo_byteAt hwf ha, storeUpTo_frame, rfl, rfl⟩

/-- Settles O39: the step advances pc by 2 and leaves the memory of the store, so the next fetch reads its bytes. -/
theorem storeIsSeenByTheNextFetch : Obligations.StoreIsSeenByTheNextFetch := by
  intro x s i hi hwf hruns hpc
  obtain ⟨t, e, hexec, hbytes, hframe, hpcOff, hhaltedOff⟩ := exec_store_spec hi (s := s.preStep) hwf
  have hstep := step_eq_timerTick_of_frame hruns hexec hframe hhaltedOff
  have hpc' : (timerTick t).pc.toNat = s.pc.toNat + 2 := by
    rw [timerTick_pc, hframe.pc hpcOff, preStep_pc_toNat (by omega)]
  have hhi := (timerTick t).byteAt_of_lt (a := s.pc.toNat + 2) (by omega)
  have hlo := (timerTick t).byteAt_of_lt (a := s.pc.toNat + 3) (by omega)
  exact ⟨timerTick t, _, _, _, hstep, hpc', (hbytes _ (by omega)).symm.trans hhi, (hbytes _ (by omega)).symm.trans hlo,
    State.fetch_of_bytes (hpc' ▸ hhi) (hpc' ▸ hlo), wordOfBytes_toNat _ _⟩

end Sys2Proof.Machine
end

section
/-! SUPPORT. What DRW does to the cells, VF and the diagnostics, by the positions its sprite covers (44_display.md R191 to
R196). -/
namespace Sys2Proof.Machine

/-! ### The drawing of one DRW -/

/-- The positions of the sprite that DRW Vx,Vy,n draws from `s`. -/
def State.sprite (s : State) (x y : Reg) (n : Nibble) : List (Nat × Nat) :=
  (List.range n.toNat).flatMap (rowPositions s ((s.readV x).toNat % 64) ((s.readV y).toNat % 32))

/-- The drawing DRW Vx,Vy,n makes from `s`. -/
def State.drawing (s : State) (x y : Reg) (n : Nibble) : Drawing :=
  drawBits (s.sprite x y n) ⟨s.display, false, false⟩

/-- The state DRW Vx,Vy,n leaves. -/
def State.drawn (s : State) (x y : Reg) (n : Nibble) : State :=
  { s with
    v := s.v.set vf (collisionFlag (s.drawing x y n).collision)
    display := (s.drawing x y n).display
    diags := s.diags ++ outOfRange .read ((List.range n.toNat).map s.effAddr) ++
      if (s.drawing x y n).clipped then [.displayClipped (s.readV x) (s.readV y) n] else [] }

section
variable (s : State) (x y : Reg) (n : Nibble)

theorem exec_drw_eq : exec (.drw x y n) s = .next (s.drawn x y n) :=
  congrArg _ (drawSprite_eq (s.readV x) (s.readV y) n s)

theorem drawn_frame : Frame { regs := [vf], display := true, diags := true } s (s.drawn x y n) :=
  Host.Outcome.next.inj (exec_drw_eq s x y n) ▸ drawSprite_frame s List.mem_cons_self rfl rfl _ _ n

theorem drawn_readV_vf : (s.drawn x y n).readV vf = collisionFlag (s.drawing x y n).collision :=
  s.writeV_readV_self vf _

theorem mem_sprite {c r : Nat} : (c, r) ∈ s.sprite x y n ↔ s.SpriteCovers (s.readV x) (s.readV y) n c r :=
  mem_spritePositions s (s.readV x) (s.readV y) n c r

theorem nodup_sprite : (s.sprite x y n).Nodup := nodup_spritePositions s _ _ n.toNat

/-- A cell on the display is flipped exactly when the sprite has a bit on it. -/
theorem cellAt_drawn {c r : Nat} (hc : c < 64) (hr : r < 32) :
    cellAt (s.drawn x y n).display c r = (cellAt s.display c r != decide ((c, r) ∈ s.sprite x y n)) :=
  cellAt_drawBits (nodup_sprite s x y n) ⟨s.display, false, false⟩ ⟨hc, hr⟩

/-! ### Cells by their number -/

theorem State.cell_eq (s : State) {c r : Nat} (hc : c < 64) : s.cell (r * 64 + c) = cellAt s.display c r := by
  have hmod : (r * 64 + c) % 64 = c := by omega
  have hdiv : (r * 64 + c) / 64 = r := by omega
  rw [State.cell, hmod, hdiv]

theorem cell_drawn_ne_iff {c r : Nat} (hc : c < 64) (hr : r < 32) :
    (s.drawn x y n).cell (r * 64 + c) ≠ s.cell (r * 64 + c) ↔ s.SpriteCovers (s.readV x) (s.readV y) n c r := by
  rw [State.cell_eq _ hc, State.cell_eq _ hc, cellAt_drawn s x y n hc hr, ← mem_sprite]
  cases cellAt s.display c r <;> simp

theorem collision_drawing_iff :
    (s.drawing x y n).collision = true ↔
      ∃ c < 64, ∃ r < 32, s.SpriteCovers (s.readV x) (s.readV y) n c r ∧ s.cell (r * 64 + c) = true := by
  rw [State.drawing, collision_drawBits (nodup_sprite s x y n)]
  constructor
  · rintro (h | ⟨⟨c, r⟩, hmem, ⟨hc, hr⟩, hlit⟩)
    · exact nomatch h
    · exact ⟨c, hc, r, hr, (mem_sprite s x y n).mp hmem, (s.cell_eq hc).trans hlit⟩
  · rintro ⟨c, hc, r, hr, hcovers, hlit⟩
    exact .inr ⟨(c, r), (mem_sprite s x y n).mpr hcovers, ⟨hc, hr⟩, (s.cell_eq hc).symm.trans hlit⟩

theorem clipped_drawing_iff :
    (s.drawing x y n).clipped = true ↔
      ∃ c r, s.SpriteCovers (s.readV x) (s.readV y) n c r ∧ (64 ≤ c ∨ 32 ≤ r) := by
  have hoff : ∀ c r : Nat, ¬ onDisplay (c, r) ↔ 64 ≤ c ∨ 32 ≤ r := fun c r => by
    rw [not_and_or, Nat.not_lt, Nat.not_lt]
  rw [State.drawing, clipped_drawBits]
  constructor
  · rintro (h | ⟨⟨c, r⟩, hmem, hclip⟩)
    · exact nomatch h
    · exact ⟨c, r, (mem_sprite s x y n).mp hmem, (hoff c r).mp hclip⟩
  · rintro ⟨c, r, hcovers, hclip⟩
    exact .inr ⟨(c, r), (mem_sprite s x y n).mpr hcovers, (hoff c r).mpr hclip⟩

end

/-! ### The statements -/

/-- Settles O41: the draw flips the positions of the sprite, and its collision is a lit one among them. -/
theorem drawXorsTheCoveredCells : Obligations.DrawXorsTheCoveredCells := by
  intro x y n s
  refine ⟨_, exec_drw_eq s x y n, fun c hc r hr => cell_drawn_ne_iff s x y n hc hr, fun hlit => ?_, fun hdark => ?_,
    drawn_frame s x y n⟩
  · rw [drawn_readV_vf, (collision_drawing_iff s x y n).mpr hlit]
    rfl
  · rw [← collision_drawing_iff, Bool.not_eq_true] at hdark
    rw [drawn_readV_vf, hdark]
    rfl

/-- Settles O42: the rows outside memory report in order, and the clipping of any bit reports once, after them. -/
theorem drawDiagnostics : Obligations.DrawDiagnostics := by
  intro x y n s
  refine ⟨_, _, exec_drw_eq s x y n, rfl, fun hclip => ?_, fun hnone => ?_⟩
  · rw [if_pos ((clipped_drawing_iff s x y n).mpr hclip)]
  · rw [if_neg ((clipped_drawing_iff s x y n).not.mpr hnone)]

/-- Settles O43: a sprite of no rows has no position, so that only VF is written. -/
theorem drawOfHeightZeroOnlyClearsVf : Obligations.DrawOfHeightZeroOnlyClearsVf := by
  intro x y s
  have hvf : s.drawn x y 0 = s.writeV vf 0 := by
    simp [State.drawn, State.drawing, State.sprite, drawBits, outOfRange, collisionFlag, State.writeV]
  exact exists_next_of_eq_writeV s (hvf ▸ exec_drw_eq s x y 0)

/-- A display is determined by its cells (10_state.md R31). -/
theorem display_ext {d d' : Display} (h : ∀ c < 64, ∀ r < 32, cellAt d c r = cellAt d' c r) : d = d' := by
  refine Vector.ext fun r hr => BitVec.eq_of_getMsbD_eq fun c hc => ?_
  simpa only [cellAt, hr, dif_pos] using h c hc r hr

/-- A draw leaves what another draw of the same sprite reads, unless a coordinate register is VF. -/
theorem sprite_drawn {x y : Reg} (hx : x ≠ vf) (hy : y ≠ vf) (n : Nibble) (s : State) :
    (s.drawn x y n).sprite x y n = s.sprite x y n := by
  have hframe := drawn_frame s x y n
  have hvx : (s.drawn x y n).readV x = s.readV x := hframe.regs x (by simpa using hx)
  have hvy : (s.drawn x y n).readV y = s.readV y := hframe.regs y (by simpa using hy)
  rw [State.sprite, hvx, hvy]
  rfl

/-- Settles O44: each cell is flipped twice or not at all. -/
theorem drawingTwiceRestoresTheDisplay : Obligations.DrawingTwiceRestoresTheDisplay := by
  intro x y n s hx hy
  refine ⟨_, _, exec_drw_eq s x y n, exec_drw_eq _ x y n, display_ext fun c hc r hr => ?_⟩
  rw [cellAt_drawn _ x y n hc hr, sprite_drawn hx hy, cellAt_drawn s x y n hc hr, Bool.bne_assoc, bne_self_eq_false,
    Bool.bne_false]

end Sys2Proof.Machine
end
